-- ==== Sys2Proof/Word.lean ====
section
/-! DEFINITION. The Word of spec/40_word.md (R90) and spec/00_scope.md (R6, R7): values of `W` = 16 bits, and the
optional value that tells a never-written Word from every number. -/

namespace Sys2Proof

/-- A value of `W` = 16 bits: what an initialized register or memory cell holds (R4, R7; `W` is log entry 7). -/
abbrev Value := BitVec 16

/-- A Word (R7, R90): `none` is the source's *uninitialized*, "distinct from any numeric value"; `some v` is
*initialized-with-value v*. -/
abbrev Word := Option Value

/-- One byte of a memory image (R49). There are no bytes inside the machine (R40). -/
abbrev Byte := BitVec 8

/-- The index of a bit of a Word, `0 <= i < W` (R96, R98: "the model types `i` as a number below `W`"). -/
abbrev BitIndex := Fin 16

end Sys2Proof
end

