-- ==== Sys2Proof/Config.lean ====
section
/-! DEFINITION. The implementation parameters of spec/00_scope.md R4, as one record. The values this model runs
with are in Machine/Params.lean. `W` is fixed by the type `Value`; `ISET` is the record `InstructionUnit` of
Machine/Engine.lean; `start`, `image` and the run kind are arguments of a run. -/

namespace Sys2Proof

/-- `IP_MODULUS` (R4, R15): the two values the spec documents. -/
inductive IpModulus where
  /-- `2^W` = 65536. -/
  | fullWord
  /-- `MEM_SIZE`. -/
  | memSize
deriving DecidableEq, Repr

/-- `BIT_WRITE_UNINIT` (R4, R96): what a bit write does to a never-written Word. -/
inductive BitWriteUninit where
  /-- The Word first becomes `some 0`. -/
  | zeroInit
deriving DecidableEq, Repr

/-- `BIT_READ_UNINIT` (R4, R98): what a bit read does on a never-written Word. -/
inductive BitReadUninit where
  /-- It raises `UninitializedRead`. -/
  | fault
deriving DecidableEq, Repr

/-- The parameters of R4 that the operations read. -/
structure Config where
  /-- `MEM_SIZE`, the number of memory cells. -/
  memSize : Nat
  /-- `SIGN_BIT`, the bit `signBit` returns. -/
  signBit : BitIndex
  /-- `IP_MODULUS`. -/
  ipModulus : IpModulus
  /-- `BIT_WRITE_UNINIT`. -/
  bitWriteUninit : BitWriteUninit
  /-- `BIT_READ_UNINIT`. -/
  bitReadUninit : BitReadUninit
deriving DecidableEq, Repr

/-- The source's constraint on the parameters (R4): "`2^W >= MEM_SIZE` so that every valid start address fits IP",
and there is a cell to start at. -/
abbrev Config.Valid (c : Config) : Prop := 0 < c.memSize ∧ c.memSize ≤ 65536

end Sys2Proof
end

