-- ==== Sys2Proof/Syntax.lean ====
section
/-! DEFINITION. The instructions of spec/opcode_table.json: the reference instruction set T0 of
spec/45_reference_iset_t0.md, as `T0.parse` returns them (R180). A term carries the operands the instruction uses;
the bits it ignores (R73, R180) are dropped by the decoder. Every operand has the type of its range, so every term is
an instruction some word encodes. -/

namespace Sys2Proof

inductive Instr where
  /-- `LDI imm8`, load immediate (R181). -/
  | ldi (imm8 : BitVec 8)
  /-- `LDA addr16`, load AC from memory (R182). -/
  | lda (addr16 : Value)
  /-- `STA addr16`, store AC to memory (R183). -/
  | sta (addr16 : Value)
  /-- `INC`, increment AC (R184). -/
  | inc
  /-- `TST`, recompute `Z` and `N` from AC (R185). -/
  | tst
  /-- `JMP addr16`, unconditional jump (R186). -/
  | jmp (addr16 : Value)
  /-- `JZ addr16`, jump if the zero flag is set (R187). -/
  | jz (addr16 : Value)
  /-- `SETF k`, set bit `k` of PS (R188). -/
  | setf (k : BitIndex)
  /-- `CLRF k`, clear bit `k` of PS (R189). -/
  | clrf (k : BitIndex)
  /-- `HLT`, halt (R190). -/
  | hlt
deriving DecidableEq, Repr

end Sys2Proof
end

