-- ==== Sys2Proof/WellFormed.lean ====
section
/-! DEFINITION. Well-formed instructions. A term of `Instr` is well formed by construction: each operand's type is its
range. What can be ill formed is what a programmer writes, the assembler statements of spec/30_encoding.md R78, whose
operands are numbers and names of any size; here are those statements, the check of each range, and the instruction a
well-formed statement stands for. Laying a program out (labels, `ORG`, the image) is Machine/Assembler.lean. -/

namespace Sys2Proof

/-- The operand of `LDA`, `STA`, `JMP`, `JZ` (R78): "`a` in `0..65535` or a label". -/
inductive Target where
  | address (n : Nat)
  | label (name : String)
deriving DecidableEq, Repr

/-- The operand of `SETF`, `CLRF` (R78): "`k` in `0..15` or one of the flag short names". -/
inductive FlagOperand where
  | bit (n : Nat)
  | name (f : String)
deriving DecidableEq, Repr

/-- One assembler statement of R78. -/
inductive Statement where
  | ldi (n : Nat)
  | lda (a : Target)
  | sta (a : Target)
  | inc
  | tst
  | jmp (a : Target)
  | jz (a : Target)
  | setf (k : FlagOperand)
  | clrf (k : FlagOperand)
  | hlt
  /-- "the directive `DW n` places the data word `n`". -/
  | dw (n : Nat)
  /-- "the directive `ORG a` sets the address of the next word". DESIGN CHOICE: `a` is a number, no label; R78 does not say what
  may stand there (log entry 25). -/
  | org (a : Nat)
deriving DecidableEq, Repr

/-- "the flag short names `C V Z N EI INT RUN P` standing for `0 1 2 3 5 6 7 8`" (R78). -/
def flagNames : List (String × BitIndex) :=
  [("C", 0), ("V", 1), ("Z", 2), ("N", 3), ("EI", 5), ("INT", 6), ("RUN", 7), ("P", 8)]

/-- The value at a name in an association list. -/
def lookupName {α : Type} (name : String) : List (String × α) → Option α
  | [] => none
  | (n, v) :: rest => if n = name then some v else lookupName name rest

/-- The value of an address operand, given what the labels stand for; `none` where it is out of range or names no
label. -/
def Target.resolve (labels : List (String × Value)) : Target → Option Value
  | .address n => if n < 65536 then some (BitVec.ofNat 16 n) else none
  | .label name => lookupName name labels

/-- The bit a flag operand names; `none` where it is out of range or no short name. -/
def FlagOperand.resolve : FlagOperand → Option BitIndex
  | .bit n => if h : n < 16 then some ⟨n, h⟩ else none
  | .name f => lookupName f flagNames

/-- The instruction a statement stands for; `none` for the two directives and for an ill-formed statement. -/
def Statement.instr? (labels : List (String × Value)) : Statement → Option Instr
  | .ldi n => if n < 256 then some (.ldi (BitVec.ofNat 8 n)) else none
  | .lda a => (a.resolve labels).map .lda
  | .sta a => (a.resolve labels).map .sta
  | .inc => some .inc
  | .tst => some .tst
  | .jmp a => (a.resolve labels).map .jmp
  | .jz a => (a.resolve labels).map .jz
  | .setf k => k.resolve.map .setf
  | .clrf k => k.resolve.map .clrf
  | .hlt => some .hlt
  | .dw _ => none
  | .org _ => none

/-- The ranges of R78: `DW` takes `0..65535`, and a statement that is no directive stands for an instruction. DESIGN CHOICE: `ORG`,
to which R78 gives no range, takes `0..65535` as well (log entry 25). -/
def Statement.wellFormed (labels : List (String × Value)) : Statement → Bool
  | .dw n => decide (n < 65536)
  | .org a => decide (a < 65536)
  | st => (st.instr? labels).isSome

end Sys2Proof
end

