-- ==== Sys2Proof/Decode.lean ====
section
/-! DEFINITION. Decoding and encoding (spec/30_encoding.md R70 to R76; spec/45_reference_iset_t0.md R180). `select` is
the part of `parse` that depends on the opcode word alone (spec/42_engine.md R140 (a)): which instruction, and how many
operand words it takes. The engine fetches those words itself (R143); `decode` reads them from a list. -/

namespace Sys2Proof

/-- The errors an instruction unit raises of its own (R203): "opaque to the engine". -/
inductive IsetError where
  /-- T0's illegal opcode word (R76). -/
  | illegalOpcode (w : Value)
  /-- An error of any other instruction unit, by a tag nothing interprets (log entry 16). -/
  | foreign (tag : Nat)
deriving DecidableEq, Repr

/-- An instruction still waiting for `n` operand words. After each of them `parse` goes on or raises an error of its own (R142:
"raise `IsetError(e)`" is available to both `parse` and `execute`). -/
@[reducible] def Operands (ι : Type) : Nat → Type
  | 0 => ι
  | n + 1 => Value → Except IsetError (Operands ι n)

/-- What an opcode word selects (R71, R140 (a), (c)): the number of operand words, and the instruction those words
complete. -/
structure Selection (ι : Type) where
  operands : Nat
  build : Operands ι operands

/-- `op`, bits 15..8 of the opcode word (R73). -/
def opcodeOf (w : Value) : BitVec 8 := w.extractLsb' 8 8

/-- `imm8`, bits 7..0 of the opcode word (R73, R74). -/
def imm8Of (w : Value) : BitVec 8 := w.extractLsb' 0 8

/-- `imm8[3:0]`, the bit index of `SETF` and `CLRF` (R74). -/
def bitIndexOf (w : Value) : BitIndex := (w.extractLsb' 0 4).toFin

/-- `T0.parse` without the operand fetches (R180): the choice depends on `w[15:8]` only. -/
def select (w : Value) : Except IsetError (Selection Instr) :=
  match (opcodeOf w).toNat with
  | 0x00 => .ok ⟨0, .ldi (imm8Of w)⟩
  | 0x01 => .ok ⟨1, fun t => .ok (.lda t)⟩
  | 0x02 => .ok ⟨1, fun t => .ok (.sta t)⟩
  | 0x03 => .ok ⟨0, .inc⟩
  | 0x04 => .ok ⟨0, .tst⟩
  | 0x05 => .ok ⟨1, fun t => .ok (.jmp t)⟩
  | 0x06 => .ok ⟨1, fun t => .ok (.jz t)⟩
  | 0x07 => .ok ⟨0, .setf (bitIndexOf w)⟩
  | 0x08 => .ok ⟨0, .clrf (bitIndexOf w)⟩
  | 0xFF => .ok ⟨0, .hlt⟩
  | _ => .error (.illegalOpcode w)

/-- Why a list of words is no instruction. -/
inductive DecodeError where
  /-- There is no opcode word. -/
  | empty
  /-- The instruction unit raises `e`: for T0, `op` is in `0x09 .. 0xFE` (R76). -/
  | rejected (e : IsetError)
  /-- The opcode word `w` takes an operand word and the list ends. -/
  | missingOperand (w : Value)
deriving DecidableEq, Repr

/-- Give the instruction that the opcode word `w` selects its operand words from the front of a list. -/
def feed {ι : Type} (w : Value) : (n : Nat) → Operands ι n → List Value → Except DecodeError (ι × List Value)
  | 0, i, ws => .ok (i, ws)
  | _ + 1, _, [] => .error (.missingOperand w)
  | n + 1, k, v :: ws =>
    match k v with
    | .error e => .error (.rejected e)
    | .ok k => feed w n k ws

/-- The instruction at the front of a list of words, and the words after it. -/
def decode : List Value → Except DecodeError (Instr × List Value)
  | [] => .error .empty
  | w :: ws =>
    match select w with
    | .error e => .error (.rejected e)
    | .ok sel => feed w sel.operands sel.build ws

/-- The value of a cell from its two image bytes, high byte first (R47, R49). -/
def joinBytes (high low : Byte) : Value := (high.setWidth 16 <<< 8) ||| low.setWidth 16

/-- Bits 15..8 of a cell, its first image byte (R48, R49). -/
def highByte (v : Value) : Byte := v.extractLsb' 8 8

/-- Bits 7..0 of a cell, its second image byte (R48, R49). -/
def lowByte (v : Value) : Byte := v.extractLsb' 0 8

/-- Image bytes as words; "the padding supplies the low byte" of an odd last one (R162). -/
def wordsOfBytes : List Byte → List Value
  | [] => []
  | [high] => [joinBytes high 0]
  | high :: low :: rest => joinBytes high low :: wordsOfBytes rest

/-- Words as image bytes (R49). -/
def bytesOfWords : List Value → List Byte
  | [] => []
  | v :: rest => highByte v :: lowByte v :: bytesOfWords rest

/-- The instruction at the front of any list of image bytes, or why there is none. -/
def decodeBytes (bs : List Byte) : Except DecodeError (Instr × List Value) := decode (wordsOfBytes bs)

/-- The two words of an instruction whose bits are `w`, numbered as the opcode table numbers them: the first word is
bits 15..0, the operand word bits 31..16; bits at and above `nbits` are 0. -/
def tableWords (nbits w : Nat) : List Value :=
  [BitVec.ofNat 16 (w % 2 ^ nbits), BitVec.ofNat 16 (w % 2 ^ nbits / 65536)]

/-- The instruction the decoder reads from the image bytes of `tableWords nbits w`. -/
def decodeTableWord (nbits w : Nat) : Option Instr :=
  match decodeBytes (bytesOfWords (tableWords nbits w)) with
  | .ok (i, _) => some i
  | .error _ => none

/-- A format A word, and the opcode word of format B with its ignored byte 0 (R73, R78). -/
def opcodeWord (op imm8 : BitVec 8) : Value := joinBytes op imm8

/-- The words of an instruction (R75), "Ignored bits are assembled as 0" (R78). -/
def encode : Instr → List Value
  | .ldi imm8 => [opcodeWord 0x00 imm8]
  | .lda addr16 => [opcodeWord 0x01 0, addr16]
  | .sta addr16 => [opcodeWord 0x02 0, addr16]
  | .inc => [opcodeWord 0x03 0]
  | .tst => [opcodeWord 0x04 0]
  | .jmp addr16 => [opcodeWord 0x05 0, addr16]
  | .jz addr16 => [opcodeWord 0x06 0, addr16]
  | .setf k => [opcodeWord 0x07 (BitVec.ofNat 8 k.val)]
  | .clrf k => [opcodeWord 0x08 (BitVec.ofNat 8 k.val)]
  | .hlt => [opcodeWord 0xFF 0]

/-- The bits of the opcode word that an instruction's meaning reads: those R73 and R180 do not call ignored. -/
def opcodeMask : Instr → Value
  | .ldi _ => 0xFFFF
  | .setf _ => 0xFF0F
  | .clrf _ => 0xFF0F
  | .lda _ => 0xFF00
  | .sta _ => 0xFF00
  | .inc => 0xFF00
  | .tst => 0xFF00
  | .jmp _ => 0xFF00
  | .jz _ => 0xFF00
  | .hlt => 0xFF00

end Sys2Proof
end

