-- ==== Sys2Proof/Machine/State.lean ====
section
/-! DEFINITION. The whole state of one BEVM-core instance (spec/10_state.md): nine register slots (R10), memory (R26),
the phase (R30) and the trace stream (R32); "Nothing else is state." Beside it the error kinds (R200), the outcomes of
an operation (R8), and the reasons a step or a host transaction stops. Plain data only. -/

namespace Sys2Proof.Machine

/-- The nine slot names (R10). `input` is the slot the spec calls IN. -/
inductive Reg where
  | ac | dr | br | cr | ps | ip | sp | input | ar
deriving DecidableEq, Repr

/-- The register file: "a fixed set of named Word slots" (R10), all nine, no alias and no bank. -/
structure RegFile where
  ac : Word
  dr : Word
  br : Word
  cr : Word
  ps : Word
  ip : Word
  sp : Word
  input : Word
  ar : Word
deriving DecidableEq, Repr

/-- The written cells of memory (R26): pairs of cell number and value, cell numbers strictly rising. A cell that is not
listed is `none`, "uninitialized". The smallest unit that exists inside the machine is the 16-bit cell (R40: "there are
no bytes inside the machine at all"; log entry 1). -/
abbrev Memory := List (Nat × Value)

/-- Which Word an `UninitializedRead` was about: what the error value carries to the host (R200; log entry 19). -/
inductive Subject where
  /-- A register slot. -/
  | reg (r : Reg)
  /-- A memory cell. -/
  | cell (a : Nat)
  /-- The address operand of a bus access (R44, R45). -/
  | addressOperand
  /-- The value operand of a bus write (R45). -/
  | valueOperand
  /-- The operand of a Word operation of spec/40_word.md that has one (R92 to R98, R101). -/
  | operand
  /-- The left operand `X` of a comparison (R99, R100). -/
  | leftOperand
  /-- The right operand `Y` of a comparison (R99, R100). -/
  | rightOperand
deriving DecidableEq, Repr

/-- The three error kinds, "exactly three" (R200). -/
inductive Error where
  | uninitializedRead (what : Subject)
  | addressOutOfRange (a : Nat)
  | isetError (e : IsetError)
deriving DecidableEq, Repr

/-- Whether a run was started by `runAt` or by `trace` (R31). -/
inductive RunKind where
  | run
  | trace
deriving DecidableEq, Repr

/-- The phase of the engine (R30). The run kind is fixed when a run starts and stands beside `running` (R31; log
entry 6). -/
inductive Phase where
  | idle
  | running (kind : RunKind)
  | halted
  | faulted (e : Error)
deriving DecidableEq, Repr

/-- One trace event: "the pair (instruction address, opcode word)" (R32, R146). -/
structure TraceEvent where
  addr : Value
  opcode : Value
deriving DecidableEq, Repr

/-- The state of one BEVM-core instance. -/
structure State where
  /-- The register file (R10); IP is the program counter (R14), PS the status word with its flags (R20). -/
  regs : RegFile
  /-- Memory (R26). -/
  mem : Memory
  /-- The phase of the engine (R30). -/
  phase : Phase
  /-- The trace stream, oldest event first (R32). -/
  trace : List TraceEvent
deriving DecidableEq, Repr

/-- Why `step` takes no step. The spec gives the engine steps only while the phase is `running` (R132) and no
transition out of `halted` and `faulted(E)` (R30), so each of these is a stop where the spec has no transition:
safe. No instruction raises one: an error during a run is a next state with phase `faulted(E)` (R138). -/
inductive Fault where
  /-- Raised by `step` in phase `idle`: no run has been started (R131, R132). Safe. -/
  | engineIdle
  /-- Raised by `step` in phase `halted`: the run is over and succeeded (R30, R148). Safe. -/
  | runHalted
  /-- Raised by `step` in phase `faulted(E)`: the run was aborted and cannot be stepped or resumed (R213). Safe. -/
  | runFaulted (e : Error)
deriving DecidableEq, Repr

/-- The model-only outcome of R8: a situation the spec refuses to give a meaning (spec/93 part 2). Each is safe: the
model stops and proves nothing about what the hardware does there. -/
inductive Refusal where
  /-- Raised by a dispatch arm whose instruction has no meaning yet: none is left. Safe. -/
  | notModelled (mnemonic : String)
  /-- Raised by the engine when an instruction returned `Continue` with `PS.RUN` = 0 (R137, F4). Safe. -/
  | runFlagCleared
  /-- Raised by the start of a run when the phase is not `idle` (R131, R144, F2). Safe. -/
  | secondRun
  /-- Raised by the start of a run at `start >= 2^W` (R131, F3). Safe. -/
  | startNotAWord
  /-- Raised by `load` on a length other than `2*MEM_SIZE` (R47, F1). Safe. -/
  | loadLength
  /-- Raised by `loadImage` on more than `2*MEM_SIZE` bytes (R162, F7). Safe. -/
  | imageTooLong
  /-- Raised by a host transaction in a phase where R160 gives it none (R168, F6). Safe. -/
  | hostMove
  /-- Raised by a bit access at an index `>= W` (R96, R98, F5). Safe. -/
  | bitIndex
deriving DecidableEq, Repr

/-- The end of an operation inside the machine (R8): **ok** with a result and the new state, or **error** with the state
"exactly as last mutated (no rollback)". -/
inductive Result (α : Type) where
  | ok (value : α) (state : State)
  | error (e : Error) (state : State)
deriving DecidableEq, Repr

/-- How an instruction's `execute` returns when it raises no error (R141): `continues` is the spec's `Continue`, `halt` its
`Halt`. The halt signal is no error (R205). -/
inductive Signal where
  | continues
  | halt
deriving DecidableEq, Repr

/-- The register file "all start uninitialized" (R10, R34). -/
def RegFile.reset : RegFile :=
  { ac := none, dr := none, br := none, cr := none, ps := none, ip := none, sp := none, input := none, ar := none }

/-- The machine right after reset, which is construction of a new instance (R34, R230). -/
def State.reset : State :=
  { regs := RegFile.reset, mem := [], phase := .idle, trace := [] }

end Sys2Proof.Machine
end

