-- ==== Sys2Proof/Machine/WordOps.lean ====
section
/-! DEFINITION. The operations on Words (spec/40_word.md R91 to R102): primitive operations, not instructions. "No Word
operation writes a flag of PS." An operation that reads a never-written Word raises `UninitializedRead`. -/

namespace Sys2Proof.Machine

/-- Bit `i` of a value, bit 0 the least significant (R6). -/
def valueBit (v : Value) (i : BitIndex) : Bool := v.getLsbD i.val

/-- `(v and not 2^i) or (b * 2^i)`: bit `i` becomes `b`, every other bit unchanged (R96). -/
def setValueBit (v : Value) (i : BitIndex) (b : Bool) : Value :=
  (v &&& ~~~(1#16 <<< i.val)) ||| (if b then 1#16 <<< i.val else 0#16)

/-- `(v + 1) mod 2^W` (R97); no flag and no error on the wrap. -/
def incrementValue (v : Value) : Value := v + 1#16

/-- Whether the whole `W`-bit value is 0, "not its low byte" (R94). -/
def valueIsZero (v : Value) : Bool := decide (v = 0#16)

/-- `v[SIGN_BIT]` (R95). -/
def valueSign (c : Config) (v : Value) : Bool := valueBit v c.signBit

/-- `uninitialized()` (R91). -/
def uninitialized : Word := none

/-- `toUnsigned()` (R92), about the Word the error names. -/
def toUnsigned (what : Subject) : Word → Except Error Value
  | none => .error (.uninitializedRead what)
  | some v => .ok v

/-- `fromUnsigned(v)` (R93): `v mod 2^W`, silently. -/
def fromUnsigned (n : Nat) : Word := some (BitVec.ofNat 16 n)

/-- `isZero()` (R94). -/
def isZero (x : Word) : Except Error Bool := (toUnsigned .operand x).map valueIsZero

/-- `signBit` (R95). -/
def signBit (c : Config) (x : Word) : Except Error Bool := (toUnsigned .operand x).map (valueSign c)

/-- `increment` (R97): the caller stores the result. -/
def increment (x : Word) : Except Error Word := (toUnsigned .operand x).map fun v => some (incrementValue v)

/-- The value a never-written Word has before its first bit write (R96, `BIT_WRITE_UNINIT`). -/
def initialValue : BitWriteUninit → Value
  | .zeroInit => 0#16

/-- `bit(i)` set (R96): the value the slot holds afterwards. It has no error. -/
def setBit (c : Config) (x : Word) (i : BitIndex) (b : Bool) : Value :=
  match x with
  | none => setValueBit (initialValue c.bitWriteUninit) i b
  | some v => setValueBit v i b

/-- `bit(i)` get (R98), about the Word the error names. -/
def getBit (c : Config) (what : Subject) (x : Word) (i : BitIndex) : Except Error Bool :=
  match x, c.bitReadUninit with
  | none, .fault => .error (.uninitializedRead what)
  | some v, _ => .ok (valueBit v i)

/-- A bit index given as a number: "anything else is refused" (R96, R98, D6). -/
def bitIndex? (i : Nat) : Except Refusal BitIndex :=
  if h : i < 16 then .ok ⟨i, h⟩ else .error .bitIndex

/-- Equality (R99): "`X` first, then `Y`", so of two never-written operands the error names the left one (R211). -/
def wordEq (x y : Word) : Except Error Bool :=
  (toUnsigned .leftOperand x).bind fun a => (toUnsigned .rightOperand y).map fun b => decide (a = b)

/-- Ordering (R100): the unsigned order. -/
def wordLt (x y : Word) : Except Error Bool :=
  (toUnsigned .leftOperand x).bind fun a => (toUnsigned .rightOperand y).map fun b => decide (a.toNat < b.toNat)

/-- `le`, from `lt` and `eq` (R100). -/
def wordLe (x y : Word) : Except Error Bool :=
  (wordLt x y).bind fun l => (wordEq x y).map fun e => l || e

/-- `gt`, from `lt` and `eq` (R100). -/
def wordGt (x y : Word) : Except Error Bool := (wordLe x y).map fun b => !b

/-- `ge`, from `lt` (R100). -/
def wordGe (x y : Word) : Except Error Bool := (wordLt x y).map fun b => !b

/-- Whole-value write (R101): what the slot holds afterwards, whatever it held. -/
def writeValue (v : Value) : Word := some v

/-- Copying a Word (R101): it reads the source, and "the uninitialized state is never copied". -/
def copyWord (y : Word) : Except Error Word := (toUnsigned .operand y).map writeValue

end Sys2Proof.Machine
end

