-- ==== Sys2Proof/Machine/Ops.lean ====
section
/-! DEFINITION. The named operations on registers and memory: register read and write (spec/41_regfile_flags.md R110,
R111), memory cells (spec/20_memory.md R41), the plain port (R43, R46), the bus port (R44, R45), the byte image (R47,
R48), and what ends a run: the abort (R138, R204) and the halt (R136). Return from an abort does not exist (R213). -/

namespace Sys2Proof.Machine

/-- Run `f` on the result of `r`; an error passes through with the state it left (R204). -/
def Result.bind {α β : Type} (r : Result α) (f : α → State → Result β) : Result β :=
  match r with
  | .ok a s => f a s
  | .error e s => .error e s

/-- The Word in slot `r`, with no failure: "The host receives the Word itself" (R112). -/
def RegFile.get (f : RegFile) : Reg → Word
  | .ac => f.ac
  | .dr => f.dr
  | .br => f.br
  | .cr => f.cr
  | .ps => f.ps
  | .ip => f.ip
  | .sp => f.sp
  | .input => f.input
  | .ar => f.ar

/-- Slot `r` becomes `some v`, "Writes no other slot and no flag" (R111). -/
def RegFile.set (f : RegFile) (r : Reg) (v : Value) : RegFile :=
  match r with
  | .ac => { f with ac := some v }
  | .dr => { f with dr := some v }
  | .br => { f with br := some v }
  | .cr => { f with cr := some v }
  | .ps => { f with ps := some v }
  | .ip => { f with ip := some v }
  | .sp => { f with sp := some v }
  | .input => { f with input := some v }
  | .ar => { f with ar := some v }

/-- Register write, `x[r] <- v` (R111). -/
def State.setReg (s : State) (r : Reg) (v : Value) : State := { s with regs := s.regs.set r v }

/-- Register read, `x[r]` (R110). -/
def readReg (r : Reg) (s : State) : Result Value :=
  match s.regs.get r with
  | some v => .ok v s
  | none => .error (.uninitializedRead (.reg r)) s

/-- Read of any bit of any register (R98, R117, R142). -/
def readBit (c : Config) (r : Reg) (i : BitIndex) (s : State) : Result Bool :=
  match getBit c (.reg r) (s.regs.get r) i with
  | .ok b => .ok b s
  | .error e => .error e s

/-- Write of any bit of any register, a read-modify-write (R96, R117, R142). -/
def State.setRegBit (c : Config) (s : State) (r : Reg) (i : BitIndex) (b : Bool) : State :=
  s.setReg r (setBit c (s.regs.get r) i b)

/-- The Word in cell `a`, `M[a]`, with no side effect; an unlisted cell is `none` (R26). -/
def Memory.read : Memory → Nat → Word
  | [], _ => none
  | (k, v) :: m, a => if a = k then some v else Memory.read m a

/-- `M[a] <- some v`; the list stays in rising order. -/
def Memory.write : Memory → Nat → Value → Memory
  | [], a, v => [(a, v)]
  | (k, w) :: m, a, v =>
    if a < k then (a, v) :: (k, w) :: m
    else if a = k then (a, v) :: m
    else (k, w) :: Memory.write m a v

/-- The cell numbers rise strictly from `low` on and are all below `size`. -/
def Memory.wfFrom (size : Nat) : Nat → Memory → Bool
  | _, [] => true
  | low, (a, _) :: m => decide (low ≤ a) && decide (a < size) && Memory.wfFrom size (a + 1) m

/-- The canonical form: cell numbers strictly rising, each below `size` (R41). No entry can equal what an unlisted cell
reads as, since that is `none` and an entry is a value. -/
def Memory.wf (size : Nat) (m : Memory) : Bool := Memory.wfFrom size 0 m

/-- Plain read (R43): the decoder of R41, then the Word as it is. -/
def plainRead (c : Config) (m : Memory) (a : Nat) : Except Error Word :=
  if a < c.memSize then .ok (m.read a) else .error (.addressOutOfRange a)

/-- Plain write (R46). -/
def plainWrite (c : Config) (m : Memory) (a : Nat) (v : Value) : Except Error Memory :=
  if a < c.memSize then .ok (m.write a v) else .error (.addressOutOfRange a)

/-- `MemRead(a, 1)`, steps 2 to 7 of R44: AR is written, the address is decoded, the cell is read, DR is written. -/
def memRead (c : Config) (a : Value) (s : State) : Result Value :=
  let s1 := s.setReg .ar a
  match plainRead c s1.mem a.toNat with
  | .error e => .error e s1
  | .ok none => .error (.uninitializedRead (.cell a.toNat)) s1
  | .ok (some v) => .ok v (s1.setReg .dr v)

/-- `BusRead(A)` (R44): an address Word that is `none` fails before any write. -/
def busRead (c : Config) (a : Word) (s : State) : Result Value :=
  match toUnsigned .addressOperand a with
  | .error e => .error e s
  | .ok a => memRead c a s

/-- `MemWrite(a, 1, v)`, steps 3 to 6 of R45: AR, then DR, then the address is decoded, then the cell is written. -/
def memWrite (c : Config) (a v : Value) (s : State) : Result Unit :=
  let s1 := (s.setReg .ar a).setReg .dr v
  match plainWrite c s1.mem a.toNat v with
  | .error e => .error e s1
  | .ok m => .ok () { s1 with mem := m }

/-- `BusWrite(A, V)` (R45): "address operand before value operand before range" (R211). -/
def busWrite (c : Config) (a v : Word) (s : State) : Result Unit :=
  match toUnsigned .addressOperand a with
  | .error e => .error e s
  | .ok a =>
    match toUnsigned .valueOperand v with
    | .error e => .error e s
    | .ok v => memWrite c a v s

/-- The cells of an image from cell `a` on, two bytes a cell, high byte first (R47). -/
def imageCells : Nat → List Byte → Memory
  | a, high :: low :: rest => (a, joinBytes high low) :: imageCells (a + 1) rest
  | _, _ => []

/-- `load(bytes)` (R47): every cell is written; another length is outside its contract and refused. -/
def loadMemory (c : Config) (bytes : List Byte) : Except Refusal Memory :=
  if bytes.length = 2 * c.memSize then .ok (imageCells 0 bytes) else .error .loadLength

/-- The bytes of `n` cells from cell `a` on; the first never-written cell in address order fails (R48). -/
def dumpCells (m : Memory) : Nat → Nat → Except Error (List Byte)
  | 0, _ => .ok []
  | n + 1, a =>
    match m.read a with
    | none => .error (.uninitializedRead (.cell a))
    | some v => (dumpCells m n (a + 1)).map fun out => highByte v :: lowByte v :: out

/-- `dump()` (R48). -/
def dumpMemory (c : Config) (m : Memory) : Except Error (List Byte) := dumpCells m c.memSize 0

/-- TAKING AN ERROR (R138, R204, R212): the phase becomes `faulted(E)`, "nothing else is done": no register, flag or
cell changes, nothing is saved, `RUN` stays as it is. -/
def State.abort (s : State) (e : Error) : State := { s with phase := .faulted e }

/-- The end of a run that halts (R136): `PS.RUN <- 0`, a bit write, and the phase becomes `halted`. -/
def State.halt (c : Config) (s : State) : State := { s.setRegBit c .ps 7 false with phase := .halted }

end Sys2Proof.Machine
end

