-- ==== Sys2Proof/Machine/Operands.lean ====
section
/-! DEFINITION. Operands: the advance of IP (spec/10_state.md R15), the operand-fetch pattern by which `parse` consumes a
further word (spec/42_engine.md R143), and the one operand form that is not a whole word (spec/30_encoding.md R74). -/

namespace Sys2Proof.Machine

/-- `IP_MODULUS` as a number (R4). -/
def ipModulus (c : Config) : Nat :=
  match c.ipModulus with
  | .fullWord => 65536
  | .memSize => c.memSize

/-- `inc_m(a)` with `m = IP_MODULUS` (R7, R15). -/
def advance (c : Config) (a : Value) : Value := BitVec.ofNat 16 ((a.toNat + 1) % ipModulus c)

/-- `FetchOperand()` (R143): "the engine's own fetch without the BR and CR writes". -/
def fetchOperand (c : Config) (s : State) : Result Value :=
  (readReg .ip s).bind fun a s =>
    (memRead c a s).bind fun v s =>
      .ok v (s.setReg .ip (advance c a))

/-- Fetch the operand words an instruction still waits for, in order (R140 (b)); `parse` may raise an error of its own after any
of them, with what was fetched so far in place (R142, R204). -/
def fetchOperands {ι : Type} (c : Config) : (n : Nat) → Operands ι n → State → Result ι
  | 0, i, s => .ok i s
  | n + 1, k, s => (fetchOperand c s).bind fun v s =>
    match k v with
    | .error e => .error (.isetError e) s
    | .ok k => fetchOperands c n k s

/-- `zext_16(imm8)`: "T0 never sign-extends" (R74). -/
def zeroExtend (imm8 : BitVec 8) : Value := imm8.setWidth 16

end Sys2Proof.Machine
end

