-- ==== Sys2Proof/Machine/Flags.lean ====
section
/-! DEFINITION. The flags: "a bit-level view over the PS register's value, not a separate entity" (spec/10_state.md R20;
spec/41_regfile_flags.md R113 to R116). -/

namespace Sys2Proof.Machine

/-- The named flags of PS (R20). Bit 4 and bits 15..9 have no name and are plain storage (R24). -/
inductive Flag where
  | carry | overflow | zero | sign | interruptEnable | interruptPending | running | parity
deriving DecidableEq, Repr

/-- The bit number of a flag (R20, R113). -/
def Flag.bit : Flag → BitIndex
  | .carry => 0
  | .overflow => 1
  | .zero => 2
  | .sign => 3
  | .interruptEnable => 5
  | .interruptPending => 6
  | .running => 7
  | .parity => 8

/-- Flag read, `PS.f` (R113). -/
def readFlag (c : Config) (f : Flag) (s : State) : Result Bool := readBit c .ps f.bit s

/-- Flag write, `PS.f <- b` (R114). -/
def State.setFlag (c : Config) (s : State) (f : Flag) (b : Bool) : State := s.setRegBit c .ps f.bit b

/-- `recalcFromAccumulator()` (R115): the only flag computation the engine owns (R21). -/
def recalcFromAccumulator (c : Config) (s : State) : Result Unit :=
  (readReg .ac s).bind fun a s =>
    .ok () ((s.setFlag c .zero (valueIsZero a)).setFlag c .sign (valueSign c a))

end Sys2Proof.Machine
end

