-- ==== Sys2Proof/Machine/Routine.lean ====
section
/-! DEFINITION. The EngineHandle (spec/42_engine.md R142): what an instruction's `execute` can do to the engine. A
`Routine` is one `execute` (R141 (a)): "a finite sequence of the capabilities of rule R142 interleaved with pure
computation on the values read". The plain port, `load`, `dump` and the start of a run are not in the handle, and the
phase and the trace stream are not reachable, because there is no constructor for them (F8; log entry 17). -/

namespace Sys2Proof.Machine

/-- An instruction's `execute` (R141), over the capabilities of R142. -/
inductive Routine where
  /-- Return `Continue`, or signal halt. -/
  | done (sig : Signal)
  /-- Raise an error of the instruction unit's own. -/
  | raise (e : IsetError)
  /-- Read a register, `x[r]`. -/
  | readReg (r : Reg) (next : Value → Routine)
  /-- Write a register, `x[r] <- v`. -/
  | writeReg (r : Reg) (v : Value) (next : Routine)
  /-- Read a bit of a register; of PS, a flag. -/
  | readBit (r : Reg) (i : BitIndex) (next : Bool → Routine)
  /-- Write a bit of a register; of PS, a flag. -/
  | writeBit (r : Reg) (i : BitIndex) (b : Bool) (next : Routine)
  /-- `recalcFromAccumulator()`. -/
  | recalc (next : Routine)
  /-- Bus read, `MemRead(a, 1)`. -/
  | busRead (a : Value) (next : Value → Routine)
  /-- Bus write, `MemWrite(a, 1, v)`. -/
  | busWrite (a v : Value) (next : Routine)

/-- `I.execute(engine)`: each capability is the operation its rule describes; the first error ends it, with the state
"as last mutated" (R141, R204). -/
def Routine.run (c : Config) : Routine → State → Result Signal
  | .done sig, s => .ok sig s
  | .raise e, s => .error (.isetError e) s
  | .readReg r next, s => (Machine.readReg r s).bind fun v s => (next v).run c s
  | .writeReg r v next, s => next.run c (s.setReg r v)
  | .readBit r i next, s => (Machine.readBit c r i s).bind fun b s => (next b).run c s
  | .writeBit r i b next, s => next.run c (s.setRegBit c r i b)
  | .recalc next, s => (recalcFromAccumulator c s).bind fun _ s => next.run c s
  | .busRead a next, s => (memRead c a s).bind fun v s => (next v).run c s
  | .busWrite a v next, s => (memWrite c a v s).bind fun _ s => next.run c s

end Sys2Proof.Machine
end

