-- ==== Sys2Proof/Machine/Engine.lean ====
section
/-! DEFINITION. The execution engine (spec/42_engine.md): start (R131), the step (R132 to R138) and the trace event
(R146), for any instruction unit `ISET` (R140, R141, R161). Machine/Step.lean is this engine with the reference unit T0
and the parameters of Machine/Params.lean. -/

namespace Sys2Proof.Machine

/-- The instruction unit, the parameter `ISET` (R4). Its contract is its type: `select` depends on the opcode word alone
and fixes the operand count (R140 (a)), `parse` does nothing but fetch operands (R140 (b)) and raise errors of its own (R142)
and cannot halt (R136), `execute` is a `Routine` (R141 (a), (c), (d)). -/
structure InstructionUnit where
  Instruction : Type
  select : Value → Except IsetError (Selection Instruction)
  execute : Instruction → Routine

/-- The start of a run (R131): "sets `running=true`, sets IP = Word(address)". -/
def State.beginRun (c : Config) (s : State) (kind : RunKind) (start : Value) : State :=
  { (s.setFlag c .running true).setReg .ip start with phase := .running kind }

/-- The fetch (R133): the writes happen in the order BR, AR, DR, CR, IP. It gives the instruction's address and its
opcode word. -/
def fetch (c : Config) (s : State) : Result (Value × Value) :=
  (readReg .ip s).bind fun a s =>
    (memRead c a (s.setReg .br a)).bind fun w s =>
      .ok (a, w) ((s.setReg .cr w).setReg .ip (advance c a))

/-- `ISET.parse(w, engine)` (R134, R140): select by the opcode word, then fetch the operand words. The unit may raise an
error of its own before the first of them or after any of them (R142). -/
def parse {ι : Type} (c : Config) (select : Value → Except IsetError (Selection ι)) (w : Value) (s : State) :
    Result ι :=
  match select w with
  | .error e => .error (.isetError e) s
  | .ok sel => fetchOperands c sel.operands sel.build s

/-- The trace event (R146): in a trace run one pair (address, opcode word) is appended; a `runAt` run emits nothing. -/
def State.emit (s : State) (kind : RunKind) (a w : Value) : State :=
  match kind with
  | .run => s
  | .trace => { s with trace := s.trace ++ [{ addr := a, opcode := w }] }

/-- Outcome handling after `execute` (R132): `Halt` ends the run (R136); `Continue` is tested for `PS.RUN` = 0 and
refused there (R137), else the run goes on; an error aborts the run (R138). -/
def complete (c : Config) : Result Signal → Host.Outcome State Fault Refusal
  | .ok .halt s => .next (s.halt c)
  | .ok .continues s =>
    match readFlag c .running s with
    | .ok true s => .next s
    | .ok false _ => .refused .runFlagCleared
    | .error e s => .next (s.abort e)
  | .error e s => .next (s.abort e)

/-- Fetch and decode of one step (R132 to R134): the instruction with its address and opcode word. -/
def fetchParse {ι : Type} (c : Config) (select : Value → Except IsetError (Selection ι)) (s : State) :
    Result (Value × Value × ι) :=
  (fetch c s).bind fun p s =>
    (parse c select p.2 s).bind fun i s =>
      .ok (p.1, p.2, i) s

/-- `Step()` (R132), with what runs the parsed instruction given as `exec`. Its precondition is phase `running`; outside
a run there is no step (R30; log entry 4). -/
def stepBy {ι : Type} (c : Config) (select : Value → Except IsetError (Selection ι))
    (exec : ι → State → Host.Outcome State Fault Refusal) (s : State) : Host.Outcome State Fault Refusal :=
  match s.phase with
  | .idle => .fault .engineIdle
  | .halted => .fault .runHalted
  | .faulted e => .fault (.runFaulted e)
  | .running kind =>
    match fetchParse c select s with
    | .ok (a, w, i) s => exec i (s.emit kind a w)
    | .error e s => .next (s.abort e)

/-- The step of the engine bound to the instruction unit `U` (R132, R161). -/
def engineStep (c : Config) (U : InstructionUnit) (s : State) : Host.Outcome State Fault Refusal :=
  stepBy c U.select (fun i s => complete c ((U.execute i).run c s)) s

end Sys2Proof.Machine
end

