-- ==== Sys2Proof/Machine/Params.lean ====
section
/-! DEFINITION. The values of the parameters this model runs with: the ones spec/00_scope.md R4 fixes. -/

namespace Sys2Proof.Machine

/-- `MEM_SIZE` = 2048, `SIGN_BIT` = 7, `IP_MODULUS` = 2^16, `BIT_WRITE_UNINIT` = zero_init, `BIT_READ_UNINIT` = fault
(R4; decisions D2, D3, D7, D4, D5 of the spec; log entries 8 to 11). -/
def config : Config :=
  { memSize := 2048, signBit := 7, ipModulus := .fullWord, bitWriteUninit := .zeroInit, bitReadUninit := .fault }

end Sys2Proof.Machine
end

