-- ==== Sys2Proof/Machine/Accumulator.lean ====
section
/-! DEFINITION. T0's instructions on the accumulator: INC, TST (spec/45_reference_iset_t0.md R184, R185). -/

namespace Sys2Proof.Machine

/-- `v <- x[AC];  x[AC] <- (v + 1) mod 2^16;  Continue` (R184). -/
def incRoutine : Routine := .readReg .ac fun v => .writeReg .ac (incrementValue v) (.done .continues)

/-- `recalcFromAccumulator();  Continue` (R185). -/
def tstRoutine : Routine := .recalc (.done .continues)

/-- INC (R184). -/
def execInc (s : State) : Host.Outcome State Fault Refusal := complete config (incRoutine.run config s)

/-- TST (R185). -/
def execTst (s : State) : Host.Outcome State Fault Refusal := complete config (tstRoutine.run config s)

end Sys2Proof.Machine
end

