-- ==== Sys2Proof/Machine/Control.lean ====
section
/-! DEFINITION. T0's control flow: JMP, JZ, HLT (spec/45_reference_iset_t0.md R186, R187, R190). -/

namespace Sys2Proof.Machine

/-- `pc <- addr16;  Continue` (R186). -/
def jmpRoutine (addr16 : Value) : Routine := .writeReg .ip addr16 (.done .continues)

/-- `if PS.Z = 1 then pc <- addr16;  Continue` (R187). -/
def jzRoutine (addr16 : Value) : Routine :=
  .readBit .ps Flag.zero.bit fun z =>
    if z then .writeReg .ip addr16 (.done .continues) else .done .continues

/-- `halt` (R190). -/
def hltRoutine : Routine := .done .halt

/-- JMP (R186). -/
def execJmp (addr16 : Value) (s : State) : Host.Outcome State Fault Refusal :=
  complete config ((jmpRoutine addr16).run config s)

/-- JZ (R187). -/
def execJz (addr16 : Value) (s : State) : Host.Outcome State Fault Refusal :=
  complete config ((jzRoutine addr16).run config s)

/-- HLT (R190). -/
def execHlt (s : State) : Host.Outcome State Fault Refusal := complete config (hltRoutine.run config s)

end Sys2Proof.Machine
end

