-- ==== Sys2Proof/Machine/StatusBits.lean ====
section
/-! DEFINITION. T0's instructions on the bits of PS: SETF, CLRF (spec/45_reference_iset_t0.md R188, R189). "`k` may name
any bit, including the reserved bit 4 and the unnamed bits 9..15". -/

namespace Sys2Proof.Machine

/-- `setBit(PS, k, 1);  Continue` (R188). -/
def setfRoutine (k : BitIndex) : Routine := .writeBit .ps k true (.done .continues)

/-- `setBit(PS, k, 0);  Continue` (R189). -/
def clrfRoutine (k : BitIndex) : Routine := .writeBit .ps k false (.done .continues)

/-- SETF (R188). -/
def execSetf (k : BitIndex) (s : State) : Host.Outcome State Fault Refusal :=
  complete config ((setfRoutine k).run config s)

/-- CLRF (R189): `CLRF 7` clears `RUN` and returns `Continue`, "the model refuses the run at that point" (R137). -/
def execClrf (k : BitIndex) (s : State) : Host.Outcome State Fault Refusal :=
  complete config ((clrfRoutine k).run config s)

end Sys2Proof.Machine
end

