-- ==== Sys2Proof/Machine/Transfer.lean ====
section
/-! DEFINITION. T0's instructions that move data between AC and the word or memory: LDI, LDA, STA
(spec/45_reference_iset_t0.md R181 to R183). For each, its `execute` and its meaning: that routine run by the engine,
with the outcome handling of spec/42_engine.md R136 to R138. -/

namespace Sys2Proof.Machine

/-- `x[AC] <- zext_16(imm8);  Continue` (R181). -/
def ldiRoutine (imm8 : BitVec 8) : Routine := .writeReg .ac (zeroExtend imm8) (.done .continues)

/-- `v <- MemRead(addr16, 1);  x[AC] <- v;  Continue` (R182). -/
def ldaRoutine (addr16 : Value) : Routine := .busRead addr16 fun v => .writeReg .ac v (.done .continues)

/-- `v <- x[AC];  MemWrite(addr16, 1, v);  Continue` (R183). -/
def staRoutine (addr16 : Value) : Routine := .readReg .ac fun v => .busWrite addr16 v (.done .continues)

/-- LDI (R181). -/
def execLdi (imm8 : BitVec 8) (s : State) : Host.Outcome State Fault Refusal :=
  complete config ((ldiRoutine imm8).run config s)

/-- LDA (R182). -/
def execLda (addr16 : Value) (s : State) : Host.Outcome State Fault Refusal :=
  complete config ((ldaRoutine addr16).run config s)

/-- STA (R183). -/
def execSta (addr16 : Value) (s : State) : Host.Outcome State Fault Refusal :=
  complete config ((staRoutine addr16).run config s)

end Sys2Proof.Machine
end

