-- ==== Sys2Proof/Machine/Dispatch.lean ====
section
/-! DEFINITION. One arm per instruction of spec/opcode_table.json. -/

namespace Sys2Proof.Machine

def exec (i : Instr) (s : State) : Host.Outcome State Fault Refusal :=
  match i with
  | .ldi imm8 => Sys2Proof.Machine.execLdi imm8 s
  | .lda addr16 => Sys2Proof.Machine.execLda addr16 s
  | .sta addr16 => Sys2Proof.Machine.execSta addr16 s
  | .inc => Sys2Proof.Machine.execInc s
  | .tst => Sys2Proof.Machine.execTst s
  | .jmp addr16 => Sys2Proof.Machine.execJmp addr16 s
  | .jz addr16 => Sys2Proof.Machine.execJz addr16 s
  | .setf k => Sys2Proof.Machine.execSetf k s
  | .clrf k => Sys2Proof.Machine.execClrf k s
  | .hlt => Sys2Proof.Machine.execHlt s

end Sys2Proof.Machine
end

