-- ==== Sys2Proof/Machine/Placement.lean ====
section
/-! DEFINITION. Placing one instruction so that the next step fetches it. It stands for what the host does before a run:
it installs an image and starts at its address (spec/70_reset_and_hazards.md R232; log entries 5 and 23). -/

namespace Sys2Proof.Machine

/-- Where the next step fetches an instruction of up to two words, both inside memory; `none` where it fetches nothing or
the second word lies outside. -/
def fetchAddress (c : Config) (s : State) : Option Value :=
  match s.phase, s.regs.ip with
  | .running _, some a => if a.toNat + 1 < c.memSize then some a else none
  | _, _ => none

/-- Store `words` in consecutive cells from `a` on. -/
def Memory.writeWords (m : Memory) : Nat → List Value → Memory
  | _, [] => m
  | a, w :: ws => Memory.writeWords (m.write a w) (a + 1) ws

/-- `s` with `words` where the next step fetches: in place if a run is going on at an address inside memory, else in a
`runAt` run that starts at cell 0. -/
def State.placeWords (c : Config) (s : State) (words : List Value) : State :=
  match fetchAddress c s with
  | some a => { s with mem := Memory.writeWords s.mem a.toNat words }
  | none => { s.beginRun c .run 0#16 with mem := Memory.writeWords s.mem 0 words }

end Sys2Proof.Machine
end

