-- ==== Sys2Proof/Machine/Step.lean ====
section
/-! DEFINITION. The step of the machine: the engine of spec/42_engine.md R132 with the reference instruction set T0. -/

namespace Sys2Proof.Machine

/-- One step (R132): fetch, decode, trace event, execute, outcome. -/
def step (s : State) : Host.Outcome State Fault Refusal := stepBy config select exec s

/-- `s` with the instruction of the opcode table's bits `w` stored where `step` fetches its next instruction. -/
def State.withFetchWord (s : State) (nbits w : Nat) : State := s.placeWords config (tableWords nbits w)

end Sys2Proof.Machine
end

