-- ==== Sys2Proof/Machine/Assembler.lean ====
section
/-! DEFINITION. The assembler of spec/30_encoding.md R78: from the text of a program to its lines, words and image bytes, and the
text of a line. It is no part of the machine. -/

namespace Sys2Proof.Machine

/-- One line: "one instruction per line", and "`label:` before an instruction binds the label to the address of its opcode
word" (R78). DESIGN CHOICE: a label may stand before a directive too, which R78 does not say (log entry 25). -/
structure AsmLine where
  label : Option String
  statement : Statement
deriving DecidableEq, Repr

/-- How many words a statement places: one or two for an instruction (R75), one for `DW`, none for `ORG`. -/
def Statement.size : Statement → Nat
  | .lda _ => 2
  | .sta _ => 2
  | .jmp _ => 2
  | .jz _ => 2
  | .org _ => 0
  | .ldi _ => 1
  | .inc => 1
  | .tst => 1
  | .setf _ => 1
  | .clrf _ => 1
  | .hlt => 1
  | .dw _ => 1

/-- The address after a statement that stands at `a`. -/
def nextAddress (a : Nat) : Statement → Nat
  | .org b => b
  | st => a + Statement.size st

/-- The labels of a program whose first word is at `a`. DESIGN CHOICE (log entry 25): a label before `DW` is the address of its
data word, a label before `ORG` the address the `ORG` leaves, and a label at an address of 65536 or more, which no operand word
holds, stands for nothing: a statement that uses it is ill formed. -/
def labelsFrom : Nat → List AsmLine → List (String × Value)
  | _, [] => []
  | a, line :: rest =>
    let later := labelsFrom (nextAddress a line.statement) rest
    match line.label with
    | some name => if a < 65536 then (name, BitVec.ofNat 16 a) :: later else later
    | none => later

/-- The words a well-formed statement places; `none` for an ill-formed one. -/
def statementWords (labels : List (String × Value)) (st : Statement) : Option (List Value) :=
  if st.wellFormed labels then
    match st with
    | .dw n => some [BitVec.ofNat 16 n]
    | .org _ => some []
    | st => (st.instr? labels).map encode
  else none

/-- The words at their addresses. -/
def placeWordsAt : Nat → List Value → List (Nat × Value)
  | _, [] => []
  | a, w :: ws => (a, w) :: placeWordsAt (a + 1) ws

/-- The words of a program from address `a` on, each with its address; `none` if a statement is ill formed. -/
def wordsFrom (labels : List (String × Value)) : Nat → List AsmLine → Option (List (Nat × Value))
  | _, [] => some []
  | a, line :: rest =>
    match statementWords labels line.statement, wordsFrom labels (nextAddress a line.statement) rest with
    | some ws, some later => some (placeWordsAt a ws ++ later)
    | _, _ => none

/-- Write words into a memory, in order. -/
def writeAll : List (Nat × Value) → Memory → Memory
  | [], m => m
  | (a, v) :: rest, m => writeAll rest (m.write a v)

/-- The cells of a program that starts at address 0, or `none` if a statement is ill formed. -/
def assemble (lines : List AsmLine) : Option Memory :=
  (wordsFrom (labelsFrom 0 lines) 0 lines).map fun ws => writeAll ws []

/-- One past the last cell listed. -/
def Memory.extent : Memory → Nat
  | [] => 0
  | [(a, _)] => a + 1
  | _ :: rest => Memory.extent rest

/-- The image bytes of `n` cells from cell `a` on (R49); a cell the program does not place is zero. -/
def imageBytes (m : Memory) : Nat → Nat → List Byte
  | 0, _ => []
  | n + 1, a =>
    let v := (m.read a).getD 0
    highByte v :: lowByte v :: imageBytes m n (a + 1)

/-- The image of a program, for `loadImage` (R162). -/
def assembleImage (lines : List AsmLine) : Option (List Byte) :=
  (assemble lines).map fun m => imageBytes m (Memory.extent m) 0

/-- The text of an address operand (R78). -/
def Target.text : Target → String
  | .address n => toString n
  | .label name => name

/-- The text of a bit operand (R78). -/
def FlagOperand.text : FlagOperand → String
  | .bit n => toString n
  | .name f => f

/-- The text of a statement: the mnemonic in capitals and its operand (R78). -/
def Statement.text : Statement → String
  | .ldi n => "LDI " ++ toString n
  | .lda a => "LDA " ++ Target.text a
  | .sta a => "STA " ++ Target.text a
  | .inc => "INC"
  | .tst => "TST"
  | .jmp a => "JMP " ++ Target.text a
  | .jz a => "JZ " ++ Target.text a
  | .setf k => "SETF " ++ FlagOperand.text k
  | .clrf k => "CLRF " ++ FlagOperand.text k
  | .hlt => "HLT"
  | .dw n => "DW " ++ toString n
  | .org a => "ORG " ++ toString a

/-- The text of a line (R78). -/
def AsmLine.text (line : AsmLine) : String :=
  match line.label with
  | some name => name ++ ": " ++ Statement.text line.statement
  | none => Statement.text line.statement

/-! The other way: from the characters of a program to its lines (R78). The spec's programs write numbers in decimal and, after
`0x`, in hexadecimal (log entry 25). -/

/-- The pieces of a text between the characters `stop` accepts; `cur` is the piece so far, backwards. -/
def splitChars (stop : Char → Bool) : List Char → List Char → List (List Char)
  | [], cur => [cur.reverse]
  | ch :: rest, cur =>
    if stop ch then cur.reverse :: splitChars stop rest [] else splitChars stop rest (ch :: cur)

/-- The tokens of one line, its comment dropped: "`;` starts a comment". -/
def tokensOf (line : List Char) : List (List Char) :=
  (splitChars (fun ch => ch = ' ' || ch = '\t' || ch = '\r') (line.takeWhile fun ch => ch ≠ ';') []).filter fun t => !t.isEmpty

/-- The value of a digit below `base`. -/
def digitValue (base : Nat) (ch : Char) : Option Nat :=
  let n := ch.toNat
  let v :=
    if 48 ≤ n ∧ n ≤ 57 then n - 48
    else if 65 ≤ n ∧ n ≤ 70 then n - 55
    else if 97 ≤ n ∧ n ≤ 102 then n - 87
    else base
  if v < base then some v else none

/-- The number its digits give, most significant first, from the value `acc` of the ones before. -/
def digitsValue (base : Nat) : List Char → Nat → Option Nat
  | [], acc => some acc
  | ch :: rest, acc =>
    match digitValue base ch with
    | some d => digitsValue base rest (acc * base + d)
    | none => none

/-- A number, decimal or hexadecimal. -/
def readNumber : List Char → Option Nat
  | [] => none
  | '0' :: 'x' :: ch :: rest => digitsValue 16 (ch :: rest) 0
  | ch :: rest => digitsValue 10 (ch :: rest) 0

/-- What a label's name may be. DESIGN CHOICE: R78 does not say; the model takes any token that is not empty and does not begin
with a digit, where a label is bound and where it is used alike (log entry 25). -/
def isLabelName : List Char → Bool
  | [] => false
  | ch :: _ => (digitValue 10 ch).isNone

/-- An address or a label. -/
def readTarget (t : List Char) : Option Target :=
  match readNumber t with
  | some n => some (.address n)
  | none => if isLabelName t then some (.label (String.ofList t)) else none

/-- A bit number or a flag name. -/
def readFlagOperand (t : List Char) : Option FlagOperand :=
  match readNumber t with
  | some n => some (.bit n)
  | none => some (.name (String.ofList t))

/-- A statement from its mnemonic, "in capitals", and its operands. DESIGN CHOICE: `ORG` takes a number and no label (log entry
25). -/
def readStatement (mnemonic : String) (operands : List (List Char)) : Option Statement :=
  match operands with
  | [] =>
    if mnemonic = "INC" then some .inc
    else if mnemonic = "TST" then some .tst
    else if mnemonic = "HLT" then some .hlt
    else none
  | [t] =>
    if mnemonic = "LDI" then (readNumber t).map .ldi
    else if mnemonic = "LDA" then (readTarget t).map .lda
    else if mnemonic = "STA" then (readTarget t).map .sta
    else if mnemonic = "JMP" then (readTarget t).map .jmp
    else if mnemonic = "JZ" then (readTarget t).map .jz
    else if mnemonic = "SETF" then (readFlagOperand t).map .setf
    else if mnemonic = "CLRF" then (readFlagOperand t).map .clrf
    else if mnemonic = "DW" then (readNumber t).map .dw
    else if mnemonic = "ORG" then (readNumber t).map .org
    else none
  | _ => none

/-- A line from its tokens: a statement, or a label with its colon and a statement, be it a directive (DESIGN CHOICE, log entry
25). -/
def readTokens : List (List Char) → Option AsmLine
  | [] => none
  | t :: rest =>
    match t.reverse, rest with
    | ':' :: name, m :: operands =>
      if isLabelName name.reverse then
        (readStatement (String.ofList m) operands).map fun st =>
          { label := some (String.ofList name.reverse), statement := st }
      else none
    | ':' :: _, [] => none
    | _, operands => (readStatement (String.ofList t) operands).map fun st => { label := none, statement := st }

/-- Lines from their tokens, empty ones skipped; `none` if one of them is no line of R78. -/
def readLines : List (List (List Char)) → Option (List AsmLine)
  | [] => some []
  | [] :: rest => readLines rest
  | ts :: rest =>
    match readTokens ts, readLines rest with
    | some line, some lines => some (line :: lines)
    | _, _ => none

/-- A program from its characters. -/
def readProgram (chars : List Char) : Option (List AsmLine) :=
  readLines ((splitChars (fun ch => ch = '\n') chars []).map tokensOf)

/-- The image of a program text, for `loadImage`. -/
def assembleText (program : String) : Option (List Byte) := (readProgram program.toList).bind assembleImage

end Sys2Proof.Machine
end

