-- ==== Sys2Proof/Machine/UnitT0.lean ====
section
/-! DEFINITION. The reference instruction set T0 as one value of the parameter `ISET` (spec/45_reference_iset_t0.md: "one
value of the `ISET` parameter"). -/

namespace Sys2Proof.Machine

/-- The `execute` of each T0 instruction (R181 to R190). -/
def t0Execute : Instr → Routine
  | .ldi imm8 => ldiRoutine imm8
  | .lda addr16 => ldaRoutine addr16
  | .sta addr16 => staRoutine addr16
  | .inc => incRoutine
  | .tst => tstRoutine
  | .jmp addr16 => jmpRoutine addr16
  | .jz addr16 => jzRoutine addr16
  | .setf k => setfRoutine k
  | .clrf k => clrfRoutine k
  | .hlt => hltRoutine

/-- T0 as an instruction unit (R180 to R190). -/
def unitT0 : InstructionUnit := { Instruction := Instr, select := select, execute := t0Execute }

end Sys2Proof.Machine
end

