-- ==== Sys2Proof/Machine/HostPort.lean ====
section
/-! DEFINITION. The host interface (spec/43_host_interface.md): every transaction of R160 in the phases where it has a
meaning, and what a run returns (R164). The host is outside the machine and has no move while the phase is `running`
(R168), so these are functions on instances and no part of `step` (log entry 14). -/

namespace Sys2Proof.Machine

/-- An instance (R130): the machine "bound to a chosen instruction-set registry". The unit is the type's argument, so it is
fixed for the life of the instance (R161): every transaction and every run takes an `Instance U`, runs `U`, and gives back an
`Instance U` (log entry 29). -/
structure Instance (U : InstructionUnit) where
  state : State
deriving DecidableEq, Repr

variable {U : InstructionUnit}

/-- The end of a host transaction (R8, R204): done with a result, failed with an error, or refused. -/
inductive Transaction (U : InstructionUnit) (α : Type) where
  | done (value : α) (after : Instance U)
  | failed (e : Error) (after : Instance U)
  | refused (r : Refusal)
deriving DecidableEq, Repr

/-- The phases in which the host may read: `idle`, `halted`, `faulted` (R160). -/
def Phase.hostMayRead : Phase → Bool
  | .idle => true
  | .running _ => false
  | .halted => true
  | .faulted _ => true

/-- A reading transaction: refused while the engine runs (R168); otherwise it answers or fails and the state stays
(R204). -/
def Instance.hostRead {α : Type} (i : Instance U) (answer : Except Error α) : Transaction U α :=
  if i.state.phase.hostMayRead then
    match answer with
    | .ok a => .done a i
    | .error e => .failed e i
  else .refused .hostMove

/-- Construct (R130, R160): the host sends `ISET` and gets a fresh instance of it, in the reset state. -/
def hostConstruct (U : InstructionUnit) : Instance U := { state := State.reset }

/-- Plain read by the host (R43, R160). -/
def hostPlainRead (c : Config) (a : Nat) (i : Instance U) : Transaction U Word := i.hostRead (plainRead c i.state.mem a)

/-- Register read by the host: the Word itself (R112). -/
def hostReadReg (r : Reg) (i : Instance U) : Transaction U Word := i.hostRead (.ok (i.state.regs.get r))

/-- Flag read by the host (R113). -/
def hostReadFlag (c : Config) (f : Flag) (i : Instance U) : Transaction U Bool :=
  i.hostRead (getBit c (.reg .ps) i.state.regs.ps f.bit)

/-- `dump()` by the host (R48, R165). -/
def hostDump (c : Config) (i : Instance U) : Transaction U (List Byte) := i.hostRead (dumpMemory c i.state.mem)

/-- Plain write by the host (R46), in `idle` only (R160). -/
def hostPlainWrite (c : Config) (a : Nat) (v : Value) (i : Instance U) : Transaction U Unit :=
  if i.state.phase = .idle then
    match plainWrite c i.state.mem a v with
    | .ok m => .done () { state := { i.state with mem := m } }
    | .error e => .failed e i
  else .refused .hostMove

/-- `load(bytes)` by the host (R47), in `idle` only (R160). AR and DR are unchanged. -/
def hostLoad (c : Config) (bytes : List Byte) (i : Instance U) : Transaction U Unit :=
  if i.state.phase = .idle then
    match loadMemory c bytes with
    | .ok m => .done () { state := { i.state with mem := m } }
    | .error r => .refused r
  else .refused .hostMove

/-- `loadImage(img)` (R162): "image length must be ≤ 2×memory-size", padded with zero bytes by the host. -/
def hostLoadImage (c : Config) (img : List Byte) (i : Instance U) : Transaction U Unit :=
  if 2 * c.memSize < img.length then .refused .imageTooLong
  else hostLoad c (img ++ List.replicate (2 * c.memSize - img.length) 0) i

/-- The start of `runAt(start)` and `trace(start, cb)` (R131). The engine does not compare `start` with `MEM_SIZE`. -/
def hostStart (c : Config) (kind : RunKind) (start : Nat) (i : Instance U) : Transaction U Unit :=
  if i.state.phase = .idle then
    if start < 65536 then .done () { state := i.state.beginRun c kind (BitVec.ofNat 16 start) }
    else .refused .startNotAWord
  else .refused .secondRun

/-- What a run gives the host (R164), run by an executor under fuel (R139: out of fuel "is a fact about the executor, not
an outcome of the machine"; log entry 26). -/
inductive RunReport (U : InstructionUnit) where
  /-- Normal return: the run halted. -/
  | returned (after : Instance U)
  /-- The error that aborted the run, and the instance as last mutated. -/
  | failed (e : Error) (after : Instance U)
  /-- The model gives the run no meaning. -/
  | refused (r : Refusal)
  /-- The fuel ran out; the machine would go on. -/
  | unfinished (after : Instance U)
deriving DecidableEq, Repr

/-- What the host sees of an instance (R148): a run is over exactly in `halted` and `faulted(E)`. -/
def Instance.report (i : Instance U) : RunReport U :=
  match i.state.phase with
  | .halted => .returned i
  | .faulted e => .failed e i
  | .idle => .unfinished i
  | .running _ => .unfinished i

/-- At most `n` steps of the instance's engine, which is the engine bound to the instance's own unit (R161). -/
def drive (c : Config) : Nat → Instance U → RunReport U
  | 0, i => i.report
  | n + 1, i =>
    match engineStep c U i.state with
    | .next s => drive c n { state := s }
    | .fault _ => i.report
    | .refused r => .refused r

/-- A whole run: the start, then at most `fuel` steps (R131, R132, R164). -/
def hostRun (c : Config) (kind : RunKind) (start fuel : Nat) (i : Instance U) : RunReport U :=
  match hostStart c kind start i with
  | .done _ i => drive c fuel i
  | .failed e i => .failed e i
  | .refused r => .refused r

/-- `runAt(start)` with the parameters of this model. -/
def runAt (start fuel : Nat) (i : Instance U) : RunReport U := hostRun config .run start fuel i

/-- `trace(start, callback)` with the parameters of this model (R145): the events the callback received are the state's trace
stream. -/
def traceAt (start fuel : Nat) (i : Instance U) : RunReport U := hostRun config .trace start fuel i

end Sys2Proof.Machine
end

