-- ==== Sys2Proof/Safety.lean ====
section
/-! DEFINITION. The terms claims are stated in: what an instruction leaves unchanged, the invariant of a run, and when two
states or two outcomes agree. -/

namespace Sys2Proof.Machine

/-- The state an operation leaves, whether it ended well or raised an error. -/
def Result.state {α : Type} : Result α → State
  | .ok _ s => s
  | .error _ s => s

/-- `PS.RUN`, bit 7 of PS (R20); false where PS is `none`. -/
def State.runFlag (s : State) : Bool :=
  match s.regs.ps with
  | some p => valueBit p 7
  | none => false

/-- Every register slot outside `rs` holds in `t` what it holds in `s`. -/
def SameRegsExcept (rs : List Reg) (s t : State) : Prop := ∀ r, r ∉ rs → t.regs.get r = s.regs.get r

/-- Every cell of memory reads in `t` as in `s`. A cell is the smallest unit of memory (R40). -/
def SameMemory (s t : State) : Prop := ∀ a, t.mem.read a = s.mem.read a

/-- Every cell but `a` reads in `t` as in `s`. -/
def SameMemoryExcept (a : Nat) (s t : State) : Prop := ∀ b, b ≠ a → t.mem.read b = s.mem.read b

/-- The phase and the trace stream are in `t` what they are in `s`. -/
def SameControl (s t : State) : Prop := t.phase = s.phase ∧ t.trace = s.trace

/-- PS holds a value in both states, and every bit outside `ks` is in `t` what it is in `s`. -/
def SamePsBitsExcept (ks : List BitIndex) (s t : State) : Prop :=
  ∃ p q, s.regs.ps = some p ∧ t.regs.ps = some q ∧ ∀ k, k ∉ ks → valueBit q k = valueBit p k

/-- The invariant of an instance. Memory has its canonical form. In `idle` nothing was written to a register and nothing was
traced (R34; the host "has no transaction that writes a register or a flag", R160). In `running`, `RUN` is 1 (R20, R137), IP
holds a value, and a `runAt` run has emitted nothing (R32). In `halted`, `RUN` is 0 (R136) and the registers the engine
maintains are initialised (R166). In `faulted`, PS, IP, BR and AR are initialised (R212). -/
def State.Inv (c : Config) (s : State) : Prop :=
  s.mem.wf c.memSize = true ∧
  match s.phase with
  | .idle => s.regs = RegFile.reset ∧ s.trace = []
  | .running kind => s.runFlag = true ∧ s.regs.ip.isSome = true ∧ (kind = .run → s.trace = [])
  | .halted =>
    s.regs.ps.isSome = true ∧ s.runFlag = false ∧ s.regs.ip.isSome = true ∧ s.regs.br.isSome = true ∧
      s.regs.ar.isSome = true ∧ s.regs.dr.isSome = true ∧ s.regs.cr.isSome = true
  | .faulted _ =>
    s.regs.ps.isSome = true ∧ s.regs.ip.isSome = true ∧ s.regs.br.isSome = true ∧ s.regs.ar.isSome = true

/-- The phase with the run kind forgotten. -/
def Phase.forgetKind : Phase → Phase
  | .running _ => .running .run
  | .idle => .idle
  | .halted => .halted
  | .faulted e => .faulted e

/-- The two states differ at most in the trace stream and the run kind (R147). -/
def SameButStream (s t : State) : Prop :=
  t.regs = s.regs ∧ t.mem = s.mem ∧ t.phase.forgetKind = s.phase.forgetKind

/-- The two states differ at most in the bits `ks` of PS. -/
def SameButPsBits (ks : List BitIndex) (s t : State) : Prop :=
  SameRegsExcept [.ps] s t ∧ (t.regs.ps = s.regs.ps ∨ SamePsBitsExcept ks s t) ∧
    t.mem = s.mem ∧ t.phase = s.phase ∧ t.trace = s.trace

/-- Two outcomes are of one kind, with related next states or equal reasons. -/
def OutcomesAgree (R : State → State → Prop) :
    Host.Outcome State Fault Refusal → Host.Outcome State Fault Refusal → Prop
  | .next s, .next t => R s t
  | .fault a, .fault b => a = b
  | .refused a, .refused b => a = b
  | _, _ => False

end Sys2Proof.Machine
end

