-- ==== Sys2Proof/Certificates/Slice0/Obligations.lean ====
section
/-! DEFINITION. The statements about this model, for the provers. -/

open Sys2Proof Sys2Proof.Machine

/-! ## Reset and the invariant -/

/-- R34: after reset every register is `none`, every cell is `none`, every flag read fails because PS is `none`, the phase is
`idle` and the trace stream is empty; construction (R130) with any instruction unit gives this state. -/
def Obligations.ResetLeavesEverythingUninitialized : Prop :=
  (∀ r, State.reset.regs.get r = none) ∧
  (∀ a, a < 2048 → plainRead config State.reset.mem a = .ok none) ∧
  (∀ U f, hostReadFlag config f (hostConstruct U) = .failed (.uninitializedRead (.reg .ps)) (hostConstruct U)) ∧
  State.reset.phase = .idle ∧ State.reset.trace = [] ∧ ∀ U, (hostConstruct U).state = State.reset

/-- The invariant holds at reset, for every value of the parameters. -/
def Obligations.ResetMeetsTheInvariant : Prop := ∀ c, State.Inv c State.reset

/-- Every step keeps the invariant: T0's step, and the step of the engine bound to any instruction unit, with any values of
the parameters (R13, R20, R30, R32, R41, R136, R137, R166, R212). -/
def Obligations.EveryStepKeepsTheInvariant : Prop :=
  (∀ s t, State.Inv config s → step s = .next t → State.Inv config t) ∧
  (∀ c U s t, State.Inv c s → engineStep c U s = .next t → State.Inv c t)

/-- Every host transaction that writes keeps the invariant (R46, R47, R131, R160). -/
def Obligations.HostTransactionsKeepTheInvariant : Prop :=
  ∀ (c : Config) (U : InstructionUnit) (i : Instance U), State.Inv c i.state →
    (∀ bytes j, hostLoad c bytes i = .done () j → State.Inv c j.state) ∧
    (∀ bytes j, hostLoadImage c bytes i = .done () j → State.Inv c j.state) ∧
    (∀ a v j, hostPlainWrite c a v i = .done () j → State.Inv c j.state) ∧
    (∀ kind start j, hostStart c kind start i = .done () j → State.Inv c j.state)

/-! ## Encodings -/

/-- Decoding an encoded instruction gives it back with every operand value, from words and from image bytes. -/
def Obligations.DecodeOfEncodeIsTheInstruction : Prop :=
  ∀ (i : Instr) (rest : List Value),
    decode (encode i ++ rest) = .ok (i, rest) ∧
    decodeBytes (bytesOfWords (encode i ++ rest)) = .ok (i, rest)

/-- What decodes to an instruction is its encoding but for the bits the instruction ignores (R73, R180): no bit that is not
ignored is lost. -/
def Obligations.EncodeOfDecodeAgreesOnEveryReadBit : Prop :=
  ∀ (ws rest : List Value) (i : Instr), decode ws = .ok (i, rest) →
    ∃ w operands, ws = w :: (operands ++ rest) ∧ encode i = (w &&& opcodeMask i) :: operands

/-- R76: exactly the opcode words with `op` in `0x09 .. 0xFE` are illegal; a step that meets one has written BR, AR, DR, CR and
IP, fetches no operand, emits no event and ends in `IsetError(IllegalOpcode(w))`; the all-zero word is `LDI 0`. -/
def Obligations.IllegalOpcodeWordsAbortTheStep : Prop :=
  (∀ w : Value, (9 ≤ (opcodeOf w).toNat ∧ (opcodeOf w).toNat ≤ 0xFE ∧ select w = .error (.illegalOpcode w)) ∨
    (((opcodeOf w).toNat < 9 ∨ (opcodeOf w).toNat = 0xFF) ∧ ∃ sel, select w = .ok sel)) ∧
  (∀ (s : State) (kind : RunKind) (a w : Value), s.phase = .running kind → s.regs.ip = some a → a.toNat < 2048 →
    s.mem.read a.toNat = some w → 9 ≤ (opcodeOf w).toNat → (opcodeOf w).toNat ≤ 0xFE →
    ∃ t, step s = .next t ∧ t.phase = .faulted (.isetError (.illegalOpcode w)) ∧
      t.regs.br = some a ∧ t.regs.ar = some a ∧ t.regs.dr = some w ∧ t.regs.cr = some w ∧
      t.regs.ip = some (a + 1#16) ∧ SameRegsExcept [.br, .ar, .dr, .cr, .ip] s t ∧ SameMemory s t ∧
      t.trace = s.trace) ∧
  decode [0x0000#16] = .ok (.ldi 0, [])

/-- Words of R75's table and of the spec's examples decode to the instructions they stand for. -/
def Obligations.TableWordsDecode : Prop :=
  decode [0x002A] = .ok (.ldi 0x2A, []) ∧ decode [0x0100, 0x0010] = .ok (.lda 0x0010, []) ∧
  decode [0x0200, 0x0010] = .ok (.sta 0x0010, []) ∧ decode [0x03AB] = .ok (.inc, []) ∧
  decode [0x0400] = .ok (.tst, []) ∧ decode [0x0500, 0x0004] = .ok (.jmp 0x0004, []) ∧
  decode [0x0600, 0x000A] = .ok (.jz 0x000A, []) ∧ decode [0x07F2] = .ok (.setf 2, []) ∧
  decode [0x0807] = .ok (.clrf 7, []) ∧ decode [0xFFAB] = .ok (.hlt, [])

/-- A program the assembler accepts (R78) is placed as the encodings of its statements: the words of a well-formed
instruction statement decode to the instruction it stands for. -/
def Obligations.AssembledStatementsDecode : Prop :=
  ∀ (labels : List (String × Value)) (st : Statement) (i : Instr) (rest : List Value), st.instr? labels = some i →
    ∃ ws, statementWords labels st = some ws ∧ ws.length = Statement.size st ∧ decode (ws ++ rest) = .ok (i, rest)

/-! ## The step -/

/-- When the words at IP decode to an instruction, the step is `exec` of it, on the state after the fetch of R133 and, for a
two-word instruction, the operand fetch of R143, with the trace event of R146 emitted. -/
def Obligations.StepRunsTheDecodedInstruction : Prop :=
  ∀ (s : State) (kind : RunKind) (a w : Value) (i : Instr), s.phase = .running kind → s.regs.ip = some a →
    a.toNat < 2048 → s.mem.read a.toNat = some w →
    (decode [w] = .ok (i, []) →
      ∃ u, step s = exec i (u.emit kind a w) ∧ u.regs.br = some a ∧ u.regs.cr = some w ∧ u.regs.ar = some a ∧
        u.regs.dr = some w ∧ u.regs.ip = some (a + 1#16) ∧ SameRegsExcept [.br, .cr, .ar, .dr, .ip] s u ∧
        u.mem = s.mem ∧ SameControl s u) ∧
    (∀ v, decode [w, v] = .ok (i, []) → a.toNat + 1 < 2048 → s.mem.read (a.toNat + 1) = some v →
      ∃ u, step s = exec i (u.emit kind a w) ∧ u.regs.br = some a ∧ u.regs.cr = some w ∧
        u.regs.ar = some (a + 1#16) ∧ u.regs.dr = some v ∧ u.regs.ip = some (a + 2#16) ∧
        SameRegsExcept [.br, .cr, .ar, .dr, .ip] s u ∧ u.mem = s.mem ∧ SameControl s u)

/-- R133: what the fetch writes when it succeeds, and what is written when it fails: BR and AR "and before DR, CR and IP are
(so IP still holds `a`)". -/
def Obligations.FetchWritesBrArDrCrIp : Prop :=
  ∀ (c : Config) (s : State),
    (s.regs.ip = none → fetch c s = .error (.uninitializedRead (.reg .ip)) s) ∧
    (∀ a, s.regs.ip = some a →
      (∀ w, a.toNat < c.memSize → s.mem.read a.toNat = some w →
        ∃ t, fetch c s = .ok (a, w) t ∧ t.regs.br = some a ∧ t.regs.ar = some a ∧ t.regs.dr = some w ∧
          t.regs.cr = some w ∧ t.regs.ip = some (advance c a) ∧ SameRegsExcept [.br, .ar, .dr, .cr, .ip] s t ∧
          t.mem = s.mem ∧ SameControl s t) ∧
      (a.toNat < c.memSize → s.mem.read a.toNat = none →
        ∃ t, fetch c s = .error (.uninitializedRead (.cell a.toNat)) t ∧ t.regs.br = some a ∧ t.regs.ar = some a ∧
          SameRegsExcept [.br, .ar] s t ∧ t.mem = s.mem ∧ SameControl s t) ∧
      (c.memSize ≤ a.toNat →
        ∃ t, fetch c s = .error (.addressOutOfRange a.toNat) t ∧ t.regs.br = some a ∧ t.regs.ar = some a ∧
          SameRegsExcept [.br, .ar] s t ∧ t.mem = s.mem ∧ SameControl s t))

/-- R143: the operand fetch is "the engine's own fetch (rule R133) without the BR and CR writes"; when it fails IP is "not yet
advanced past the failing word". -/
def Obligations.OperandFetchKeepsBrAndCr : Prop :=
  ∀ (c : Config) (s : State) (a : Value), s.regs.ip = some a →
    (∀ v, a.toNat < c.memSize → s.mem.read a.toNat = some v →
      ∃ t, fetchOperand c s = .ok v t ∧ t.regs.ar = some a ∧ t.regs.dr = some v ∧ t.regs.ip = some (advance c a) ∧
        SameRegsExcept [.ar, .dr, .ip] s t ∧ t.mem = s.mem ∧ SameControl s t) ∧
    (a.toNat < c.memSize → s.mem.read a.toNat = none →
      ∃ t, fetchOperand c s = .error (.uninitializedRead (.cell a.toNat)) t ∧ t.regs.ar = some a ∧
        SameRegsExcept [.ar] s t ∧ t.mem = s.mem ∧ SameControl s t) ∧
    (c.memSize ≤ a.toNat →
      ∃ t, fetchOperand c s = .error (.addressOutOfRange a.toNat) t ∧ t.regs.ar = some a ∧
        SameRegsExcept [.ar] s t ∧ t.mem = s.mem ∧ SameControl s t)

/-- R140: for any instruction unit, once fetch and `parse` are done, BR and CR hold the instruction's address and opcode word,
IP has advanced past the opcode word and each operand word the opcode word selects, and nothing but AR and DR besides has
changed. `parse` itself, whether it gives an instruction or raises an error, changes no register but AR, DR and IP; so where it
raises one after a fetch, BR and CR hold what the fetch wrote (R143, R241). -/
def Obligations.ParseOnlyFetchesOperands : Prop :=
  ∀ (c : Config) (U : InstructionUnit) (s t : State),
    (∀ w, (parse c U.select w s).state = t → SameRegsExcept [.ar, .dr, .ip] s t ∧ t.mem = s.mem ∧ SameControl s t) ∧
    (∀ (a w : Value) (i : U.Instruction), fetchParse c U.select s = .ok (a, w, i) t →
      s.regs.ip = some a ∧ a.toNat < c.memSize ∧ s.mem.read a.toNat = some w ∧
      ∃ sel, U.select w = .ok sel ∧ t.regs.br = some a ∧ t.regs.cr = some w ∧
        t.regs.ip = some ((advance c)^[sel.operands + 1] a) ∧ SameRegsExcept [.br, .ar, .dr, .cr, .ip] s t ∧
        t.mem = s.mem ∧ SameControl s t) ∧
    (∀ e, fetchParse c U.select s = .error e t →
      SameRegsExcept [.br, .ar, .dr, .cr, .ip] s t ∧ t.mem = s.mem ∧ SameControl s t ∧
      ∀ a w u, fetch c s = .ok (a, w) u → t.regs.br = some a ∧ t.regs.cr = some w)

/-- When `parse` raises an error of its own after an operand fetch, the run is aborted with the operand fetched (AR, DR and IP are
its), BR and CR the instruction's, and no event (R138, R143, R146). That `parse` may raise one there is the model's choice, log
entry 17: R142 lists the raise among what `parse` can do, and R140 does not say when. -/
def Obligations.ParseMayRaiseAfterAnOperandFetch : Prop :=
  ∀ (c : Config) (U : InstructionUnit) (s : State) (kind : RunKind) (a w v : Value)
    (k : Operands U.Instruction 1) (e : IsetError),
    s.phase = .running kind → s.regs.ip = some a → a.toNat < c.memSize → s.mem.read a.toNat = some w →
    (advance c a).toNat < c.memSize → s.mem.read (advance c a).toNat = some v →
    U.select w = .ok ⟨1, k⟩ → k v = .error e →
    ∃ t, engineStep c U s = .next t ∧ t.phase = .faulted (.isetError e) ∧ t.regs.br = some a ∧ t.regs.cr = some w ∧
      t.regs.ar = some (advance c a) ∧ t.regs.dr = some v ∧ t.regs.ip = some (advance c (advance c a)) ∧
      SameRegsExcept [.br, .ar, .dr, .cr, .ip] s t ∧ t.mem = s.mem ∧ t.trace = s.trace

/-- The engine takes steps only in a run: in `idle`, `halted` and `faulted(E)` the model's step stops (R30, R132, R213; that it
stops with a fault of these names is the model's choice, log entry 4). -/
def Obligations.NoStepOutsideARun : Prop :=
  ∀ s : State,
    (s.phase = .idle → step s = .fault .engineIdle) ∧
    (s.phase = .halted → step s = .fault .runHalted) ∧
    (∀ e, s.phase = .faulted e → step s = .fault (.runFaulted e))

/-- R30: a step is taken in phase `running` only, and leads to the same running phase, to `halted` or to `faulted(E)`; so
`halted` and `faulted(E)` have no outgoing transition. For any instruction unit. -/
def Obligations.PhaseMovesOnlyForward : Prop :=
  ∀ (c : Config) (U : InstructionUnit) (s t : State), engineStep c U s = .next t →
    ∃ kind, s.phase = .running kind ∧
      (t.phase = .running kind ∨ t.phase = .halted ∨ ∃ e, t.phase = .faulted e)

/-- R131: the start of a run sets `RUN` and IP and nothing else, from reset it leaves PS = `0x0080`; a second run and a start
that is no Word value are refused; a start outside memory is accepted and the first step ends in `AddressOutOfRange(start)`
after writing BR and AR. For any instruction unit. -/
def Obligations.StartSetsRunAndIp : Prop :=
  ∀ (kind : RunKind) (start : Nat) (U : InstructionUnit) (s : State),
    (s.phase ≠ .idle → hostStart (U := U) config kind start ⟨s⟩ = .refused .secondRun) ∧
    (s.phase = .idle → 65536 ≤ start → hostStart (U := U) config kind start ⟨s⟩ = .refused .startNotAWord) ∧
    (s.phase = .idle → start < 65536 →
      ∃ t p, hostStart (U := U) config kind start ⟨s⟩ = .done () ⟨t⟩ ∧ t.phase = .running kind ∧
        t.regs.ip = some (BitVec.ofNat 16 start) ∧ t.regs.ps = some p ∧ valueBit p 7 = true ∧
        (∀ k, k ≠ 7 → valueBit p k = valueBit (s.regs.ps.getD 0#16) k) ∧
        (s.regs.ps = none → p = 0x0080#16) ∧
        SameRegsExcept [.ps, .ip] s t ∧ t.mem = s.mem ∧ t.trace = s.trace ∧
        (2048 ≤ start →
          ∃ u, engineStep config U t = .next u ∧ u.phase = .faulted (.addressOutOfRange start) ∧
            u.regs.br = some (BitVec.ofNat 16 start) ∧ u.regs.ar = some (BitVec.ofNat 16 start) ∧
            SameRegsExcept [.br, .ar] t u ∧ u.mem = t.mem ∧ u.trace = t.trace))

/-- R15: the advance of IP under both moduli, with the wraps at the top of the Word and of memory. -/
def Obligations.IpAdvanceWrapsAtTheModulus : Prop :=
  ∀ (c : Config) (a : Value), c.Valid →
    (c.ipModulus = .fullWord → advance c a = incrementValue a ∧ (a = 0xFFFF#16 → advance c a = 0#16)) ∧
    (c.ipModulus = .memSize →
      (advance c a).toNat = (a.toNat + 1) % c.memSize ∧ (advance c a).toNat < c.memSize ∧
      (a.toNat = c.memSize - 1 → advance c a = 0#16))

/-- R136: whatever instruction unit signals halt, the run ends: `RUN` is cleared, "every other bit of PS keeps the value the
halting instruction left", every write it made stays, and the phase is `halted`. -/
def Obligations.HaltClearsRunAndEndsTheRun : Prop :=
  ∀ (c : Config) (U : InstructionUnit) (s u v : State) (kind : RunKind) (a w : Value) (i : U.Instruction),
    s.phase = .running kind → fetchParse c U.select s = .ok (a, w, i) u →
    (U.execute i).run c (u.emit kind a w) = .ok .halt v →
    ∃ t q, engineStep c U s = .next t ∧ t.phase = .halted ∧ t.regs.ps = some q ∧ valueBit q 7 = false ∧
      (∀ k, k ≠ 7 → valueBit q k = valueBit (v.regs.ps.getD 0#16) k) ∧
      SameRegsExcept [.ps] v t ∧ t.mem = v.mem ∧ t.trace = v.trace

/-- R137: after a `Continue` the engine tests bit 7 of PS as it stands then: 1, and the run goes on from the state the
instruction left; 0, and the model refuses. -/
def Obligations.ContinueWithRunClearedIsRefused : Prop :=
  ∀ (c : Config) (U : InstructionUnit) (s u v : State) (kind : RunKind) (a w p : Value) (i : U.Instruction),
    s.phase = .running kind → fetchParse c U.select s = .ok (a, w, i) u →
    (U.execute i).run c (u.emit kind a w) = .ok .continues v → v.regs.ps = some p →
    (valueBit p 7 = true → engineStep c U s = .next v) ∧
    (valueBit p 7 = false → engineStep c U s = .refused .runFlagCleared)

/-- R138: an error in the fetch, in `parse` or in `execute` aborts the run: the phase becomes `faulted(E)` and every register,
cell and the stream keep what they held at the raise. -/
def Obligations.ErrorsAbortWithoutRollback : Prop :=
  ∀ (c : Config) (U : InstructionUnit) (s : State) (kind : RunKind), s.phase = .running kind →
    (∀ e u, fetchParse c U.select s = .error e u →
      ∃ t, engineStep c U s = .next t ∧ t.phase = .faulted e ∧ t.regs = u.regs ∧ t.mem = u.mem ∧
        t.trace = u.trace) ∧
    (∀ a w i u e v, fetchParse c U.select s = .ok (a, w, i) u →
      (U.execute i).run c (u.emit kind a w) = .error e v →
      ∃ t, engineStep c U s = .next t ∧ t.phase = .faulted e ∧ t.regs = v.regs ∧ t.mem = v.mem ∧
        t.trace = v.trace)

/-! ## Whole-machine rules -/

/-- A T0 step that aborts a run leaves PS (so `RUN` is still 1, R23), AC, SP, IN and all of memory as they were. -/
def Obligations.AbortLeavesStatusAndDataAlone : Prop :=
  ∀ (s t : State) (e : Error), s.runFlag = true → step s = .next t → t.phase = .faulted e →
    t.regs.ps = s.regs.ps ∧ t.regs.ac = s.regs.ac ∧ t.regs.sp = s.regs.sp ∧ t.regs.input = s.regs.input ∧
    t.mem = s.mem

/-- Memory changes by `STA` only, only at its operand's address, and the cell then holds AC (R181 to R190). -/
def Obligations.OnlyStaWritesMemory : Prop :=
  ∀ (s t : State) (b : Nat), step s = .next t → t.mem.read b ≠ s.mem.read b →
    ∃ a w v x, s.regs.ip = some a ∧ s.mem.read a.toNat = some w ∧ opcodeOf w = 0x02#8 ∧
      s.mem.read (a.toNat + 1) = some v ∧ v.toNat = b ∧ s.regs.ac = some x ∧ t.mem.read b = some x

/-- "no use of SP or IN" (R191): no step of T0 changes either, whatever they hold. -/
def Obligations.StackPointerAndInputAreNeverTouched : Prop :=
  ∀ s t : State, step s = .next t → t.regs.sp = s.regs.sp ∧ t.regs.input = s.regs.input

/-- Which instruction changes which bit of PS (R21): `Z` and `N` by `TST`, `RUN` by the halt, and any bit by the `SETF` or
`CLRF` that names it; no other step changes a bit of PS. -/
def Obligations.StatusBitsChangeOnlyByNamedInstructions : Prop :=
  ∀ (s t : State) (p q : Value) (k : BitIndex), step s = .next t → s.regs.ps = some p → t.regs.ps = some q →
    valueBit q k ≠ valueBit p k →
    ∃ a w, s.regs.ip = some a ∧ s.mem.read a.toNat = some w ∧
      ((opcodeOf w = 0x04#8 ∧ (k = 2 ∨ k = 3)) ∨ (opcodeOf w = 0xFF#8 ∧ k = 7) ∨
       (opcodeOf w = 0x07#8 ∧ bitIndexOf w = k ∧ valueBit q k = true) ∨
       (opcodeOf w = 0x08#8 ∧ bitIndexOf w = k ∧ valueBit q k = false))

/-- No T0 step reads a bit of PS other than `Z` and `RUN`: two states that differ in other bits only (among them `EI` and
`INT`, R210: "changes nothing in how the engine steps") step alike and still differ in those bits at most. -/
def Obligations.OnlyZeroAndRunBitsAreEverRead : Prop :=
  ∀ (ks : List BitIndex) (s t : State), (2 : BitIndex) ∉ ks → (7 : BitIndex) ∉ ks → SameButPsBits ks s t →
    OutcomesAgree (SameButPsBits ks) (step s) (step t)

/-- R147: a trace run and a `runAt` run go through the same states, step for step, and differ only in the stream. For any
instruction unit. -/
def Obligations.TracingObservesAndDoesNotAct : Prop :=
  ∀ (c : Config) (U : InstructionUnit) (s t : State), SameButStream s t →
    OutcomesAgree SameButStream (engineStep c U s) (engineStep c U t)

/-- R146: a step of a trace run appends one event with the instruction's address and opcode word if `parse` returned an
instruction, whatever `execute` then does, and none if `parse` (or the fetch) raised; a `runAt` run emits nothing. -/
def Obligations.OneTraceEventPerExecutedInstruction : Prop :=
  ∀ (c : Config) (U : InstructionUnit) (s t : State), engineStep c U s = .next t →
    (s.phase = .running .run → t.trace = s.trace) ∧
    (s.phase = .running .trace →
      (∀ a w i u, fetchParse c U.select s = .ok (a, w, i) u →
        s.regs.ip = some a ∧ s.mem.read a.toNat = some w ∧
        t.trace = s.trace ++ [{ addr := a, opcode := w }]) ∧
      (∀ e u, fetchParse c U.select s = .error e u → t.trace = s.trace))

/-- "No operation returns a slot to `none`" (R13): what a register or a cell holds may change in a step, but it goes on holding
a value. For any instruction unit. -/
def Obligations.WrittenWordsStayWritten : Prop :=
  ∀ (c : Config) (U : InstructionUnit) (s t : State), engineStep c U s = .next t →
    (∀ r, (s.regs.get r).isSome = true → (t.regs.get r).isSome = true) ∧
    (∀ a, (s.mem.read a).isSome = true → (t.mem.read a).isSome = true)

/-- R57: a store is seen by the next fetch of that cell, with nothing in between. -/
def Obligations.FetchSeesTheLastStore : Prop :=
  ∀ (c : Config) (s t : State) (a v b : Value), memWrite c a v s = .ok () t → t.regs.ip = some b →
    b.toNat < c.memSize →
    (b = a → ∃ u, fetch c t = .ok (b, v) u) ∧
    (b ≠ a → ∀ w, s.mem.read b.toNat = some w → ∃ u, fetch c t = .ok (b, w) u)

/-! ## Memory and the host's ports -/

/-- R44: every end of a bus read. -/
def Obligations.BusReadMirrorsIntoArAndDr : Prop :=
  ∀ (c : Config) (s : State),
    busRead c none s = .error (.uninitializedRead .addressOperand) s ∧
    ∀ a : Value,
      (c.memSize ≤ a.toNat →
        ∃ t, busRead c (some a) s = .error (.addressOutOfRange a.toNat) t ∧ t.regs.ar = some a ∧
          SameRegsExcept [.ar] s t ∧ t.mem = s.mem ∧ SameControl s t) ∧
      (a.toNat < c.memSize → s.mem.read a.toNat = none →
        ∃ t, busRead c (some a) s = .error (.uninitializedRead (.cell a.toNat)) t ∧ t.regs.ar = some a ∧
          SameRegsExcept [.ar] s t ∧ t.mem = s.mem ∧ SameControl s t) ∧
      (∀ v, a.toNat < c.memSize → s.mem.read a.toNat = some v →
        ∃ t, busRead c (some a) s = .ok v t ∧ t.regs.ar = some a ∧ t.regs.dr = some v ∧
          SameRegsExcept [.ar, .dr] s t ∧ t.mem = s.mem ∧ SameControl s t)

/-- R45: every end of a bus write. -/
def Obligations.BusWriteMirrorsIntoArAndDr : Prop :=
  ∀ (c : Config) (s : State),
    (∀ x, busWrite c none x s = .error (.uninitializedRead .addressOperand) s) ∧
    (∀ a : Value, busWrite c (some a) none s = .error (.uninitializedRead .valueOperand) s) ∧
    ∀ a v : Value,
      (c.memSize ≤ a.toNat →
        ∃ t, busWrite c (some a) (some v) s = .error (.addressOutOfRange a.toNat) t ∧ t.regs.ar = some a ∧
          t.regs.dr = some v ∧ SameRegsExcept [.ar, .dr] s t ∧ t.mem = s.mem ∧ SameControl s t) ∧
      (a.toNat < c.memSize →
        ∃ t, busWrite c (some a) (some v) s = .ok () t ∧ t.regs.ar = some a ∧ t.regs.dr = some v ∧
          SameRegsExcept [.ar, .dr] s t ∧ t.mem.read a.toNat = some v ∧ SameMemoryExcept a.toNat s t ∧
          SameControl s t)

/-- R43, R46: the plain port, used by the host in `idle`: a plain write stores one cell and touches no register, a plain read
gives the Word as it is, and both fail outside memory with the state unchanged. -/
def Obligations.PlainPortHasNoSideEffect : Prop :=
  ∀ (c : Config) (U : InstructionUnit) (s : State) (a : Nat) (v : Value), s.phase = .idle →
    (a < c.memSize →
      hostPlainRead (U := U) c a ⟨s⟩ = .done (s.mem.read a) ⟨s⟩ ∧
      ∃ t, hostPlainWrite (U := U) c a v ⟨s⟩ = .done () ⟨t⟩ ∧ t.mem.read a = some v ∧ SameMemoryExcept a s t ∧ t.regs = s.regs ∧
        SameControl s t) ∧
    (c.memSize ≤ a →
      hostPlainRead (U := U) c a ⟨s⟩ = .failed (.addressOutOfRange a) ⟨s⟩ ∧
      hostPlainWrite (U := U) c a v ⟨s⟩ = .failed (.addressOutOfRange a) ⟨s⟩)

/-- R48, the source's round trip: `load` then `dump` "returns the original bytes unchanged", for any bytes of the exact
length. -/
def Obligations.LoadThenDumpReturnsTheBytes : Prop :=
  ∀ (c : Config) (bytes : List Byte), bytes.length = 2 * c.memSize →
    ∃ m, loadMemory c bytes = .ok m ∧ dumpMemory c m = .ok bytes

/-- R47: `load` by the host in `idle`: cell `a` becomes `b[2a] * 256 + b[2a+1]`, every cell is written, no register changes;
another length is refused. -/
def Obligations.LoadFillsCellsBigEndian : Prop :=
  ∀ (c : Config) (U : InstructionUnit) (s : State) (bytes : List Byte), s.phase = .idle →
    (bytes.length ≠ 2 * c.memSize → hostLoad (U := U) c bytes ⟨s⟩ = .refused .loadLength) ∧
    (bytes.length = 2 * c.memSize →
      ∃ t, hostLoad (U := U) c bytes ⟨s⟩ = .done () ⟨t⟩ ∧ t.regs = s.regs ∧ SameControl s t ∧
        ∀ a, a < c.memSize → ∃ v high low, t.mem.read a = some v ∧ bytes[2 * a]? = some high ∧
          bytes[2 * a + 1]? = some low ∧ v.toNat = high.toNat * 256 + low.toNat)

/-- R48: `dump` fails exactly if some cell was never written, with the first such cell in address order; else it gives
`2*MEM_SIZE` bytes. -/
def Obligations.DumpFailsAtTheFirstUnwrittenCell : Prop :=
  ∀ (c : Config) (m : Memory),
    (∀ a, a < c.memSize → m.read a = none → (∀ b, b < a → (m.read b).isSome = true) →
      dumpMemory c m = .error (.uninitializedRead (.cell a))) ∧
    ((∀ a, a < c.memSize → (m.read a).isSome = true) →
      ∃ bytes, dumpMemory c m = .ok bytes ∧ bytes.length = 2 * c.memSize ∧
        ∀ a v, a < c.memSize → m.read a = some v →
          bytes[2 * a]? = some (highByte v) ∧ bytes[2 * a + 1]? = some (lowByte v))

/-- R162: a shorter image is padded by the host with zero bytes, so that cells beyond it hold `0x0000`; an odd length is legal;
a longer one is refused. Registers, phase and stream stay as they were. -/
def Obligations.LoadImagePadsWithZeros : Prop :=
  ∀ (c : Config) (U : InstructionUnit) (s : State) (img : List Byte), s.phase = .idle →
    (2 * c.memSize < img.length → hostLoadImage (U := U) c img ⟨s⟩ = .refused .imageTooLong) ∧
    (img.length ≤ 2 * c.memSize →
      ∃ t, hostLoadImage (U := U) c img ⟨s⟩ = .done () ⟨t⟩ ∧ t.regs = s.regs ∧ SameControl s t ∧
        ∀ a, a < c.memSize → ∃ v, t.mem.read a = some v ∧ highByte v = img.getD (2 * a) 0 ∧
          lowByte v = img.getD (2 * a + 1) 0)

/-- R112, R113, R165: whenever the engine is not running, the host reads any register as the Word it holds, any flag as its bit
of PS (failing if PS is `none`), and memory by plain read or dump, and every such read leaves the whole state as it was. -/
def Obligations.HostReadsGiveTheWordAndChangeNothing : Prop :=
  ∀ (c : Config) (U : InstructionUnit) (i : Instance U), (∀ kind, i.state.phase ≠ .running kind) →
    (∀ r, hostReadReg r i = .done (i.state.regs.get r) i) ∧
    (∀ f p, i.state.regs.ps = some p → hostReadFlag c f i = .done (valueBit p f.bit) i) ∧
    (∀ f, i.state.regs.ps = none → hostReadFlag c f i = .failed (.uninitializedRead (.reg .ps)) i) ∧
    (∀ a, a < c.memSize → hostPlainRead c a i = .done (i.state.mem.read a) i) ∧
    (∀ a, c.memSize ≤ a → hostPlainRead c a i = .failed (.addressOutOfRange a) i) ∧
    (∀ bytes, dumpMemory c i.state.mem = .ok bytes → hostDump c i = .done bytes i) ∧
    (∀ e, dumpMemory c i.state.mem = .error e → hostDump c i = .failed e i)

/-- R160, R168: while the engine runs the host has no transaction at all, and after a run it has none that writes or starts. -/
def Obligations.HostHasNoMoveDuringARun : Prop :=
  ∀ (c : Config) (U : InstructionUnit) (i : Instance U),
    ((∃ kind, i.state.phase = .running kind) →
      (∀ a, hostPlainRead c a i = .refused .hostMove) ∧ (∀ r, hostReadReg r i = .refused .hostMove) ∧
      (∀ f, hostReadFlag c f i = .refused .hostMove) ∧ hostDump c i = .refused .hostMove) ∧
    (i.state.phase ≠ .idle →
      (∀ a v, hostPlainWrite c a v i = .refused .hostMove) ∧ (∀ b, hostLoad c b i = .refused .hostMove) ∧
      (∀ kind start, hostStart c kind start i = .refused .secondRun))

/-- R148, R164, R166: a run that returns normally is in `halted`, with `RUN` = 0 and BR, AR, DR, CR, IP and PS initialised; a
run that fails with `E` is in `faulted(E)`. For any instruction unit and any fuel. -/
def Obligations.ReturnedRunsAreHalted : Prop :=
  ∀ (c : Config) (U : InstructionUnit) (n : Nat) (i j : Instance U), State.Inv c i.state →
    (drive c n i = .returned j →
      j.state.phase = .halted ∧ j.state.runFlag = false ∧
      ∀ r, r ∈ [Reg.br, .ar, .dr, .cr, .ip, .ps] → (j.state.regs.get r).isSome = true) ∧
    (∀ e, drive c n i = .failed e j → j.state.phase = .faulted e)

/-- R139: the fuel belongs to the executor: once a run has ended, more fuel changes nothing, and a run out of fuel is still in
the middle of the run, with `RUN` = 1 "throughout". -/
def Obligations.FuelDoesNotChangeTheEndOfARun : Prop :=
  ∀ (c : Config) (U : InstructionUnit) (n k : Nat) (i : Instance U),
    (∀ j, drive c n i = .returned j → drive c (n + k) i = .returned j) ∧
    (∀ e j, drive c n i = .failed e j → drive c (n + k) i = .failed e j) ∧
    (∀ j kind, State.Inv c i.state → i.state.phase = .running kind → drive c n i = .unfinished j →
      j.state.phase = .running kind ∧ j.state.runFlag = true)

/-- R139, R186: "`JMP` to its own address is an endless loop": whatever the number of steps, the run goes on, IP is at the same
address after every step and `RUN` stays 1. -/
def Obligations.JumpToItselfRunsForever : Prop :=
  ∀ (s : State) (kind : RunKind) (a w : Value) (n : Nat), s.phase = .running kind → s.runFlag = true →
    s.regs.ip = some a → a.toNat + 1 < 2048 → s.mem.read a.toNat = some w → opcodeOf w = 0x05#8 →
    s.mem.read (a.toNat + 1) = some a →
    ∃ t, drive (U := unitT0) config n ⟨s⟩ = .unfinished ⟨t⟩ ∧ t.phase = .running kind ∧ t.runFlag = true ∧ t.regs.ip = some a ∧
      t.mem = s.mem

/-! ## Words and flags -/

/-- R93, R97: `fromUnsigned` reduces modulo `2^16`, `increment` adds 1 modulo `2^16` and fails on a never-written Word. -/
def Obligations.IncrementWrapsModuloTheWord : Prop :=
  (∀ n, toUnsigned .operand (fromUnsigned n) = .ok (BitVec.ofNat 16 n)) ∧
  (∀ n, increment (fromUnsigned n) = .ok (fromUnsigned ((n + 1) % 65536))) ∧
  increment none = .error (.uninitializedRead .operand)

/-- R92, R94, R95: the value, the zero test on "the whole W-bit value, not its low byte", and the sign, "bit 7 of the value";
each fails on a never-written Word. -/
def Obligations.WordInspectionsReadTheWholeValue : Prop :=
  (∀ v : Value, toUnsigned .operand (some v) = .ok v ∧ isZero (some v) = .ok (decide (v.toNat = 0)) ∧
    signBit config (some v) = .ok (valueBit v 7)) ∧
  toUnsigned .operand none = .error (.uninitializedRead .operand) ∧
  isZero none = .error (.uninitializedRead .operand) ∧ signBit config none = .error (.uninitializedRead .operand)

/-- R96, R98: a bit write changes one bit and takes a never-written Word as 0; a bit read gives the bit and fails on a
never-written Word; an index is a bit of the Word below 16 and is refused from 16 on. -/
def Obligations.BitAccessReadsAndWritesOneBit : Prop :=
  (∀ (x : Word) (i k : BitIndex) (b : Bool),
    valueBit (setBit config x i b) k = (if k = i then b else valueBit (x.getD 0#16) k)) ∧
  (∀ (v : Value) (i : BitIndex), getBit config .operand (some v) i = .ok (v.toNat.testBit i.val)) ∧
  (∀ i : BitIndex, getBit config .operand none i = .error (.uninitializedRead .operand)) ∧
  (∀ n, (n < 16 → ∃ i, bitIndex? n = .ok i ∧ i.val = n) ∧ (16 ≤ n → bitIndex? n = .error .bitIndex))

/-- R99, R100, R211: comparisons compare unsigned values when both sides are initialized, and fail otherwise, the left operand
first; the error says which operand it was (R200). -/
def Obligations.ComparisonsNeedInitializedWords : Prop :=
  (∀ x y : Value, wordEq (some x) (some y) = .ok (decide (x.toNat = y.toNat)) ∧
    wordLt (some x) (some y) = .ok (decide (x.toNat < y.toNat)) ∧
    wordLe (some x) (some y) = .ok (decide (x.toNat ≤ y.toNat)) ∧
    wordGt (some x) (some y) = .ok (decide (y.toNat < x.toNat)) ∧
    wordGe (some x) (some y) = .ok (decide (y.toNat ≤ x.toNat))) ∧
  (∀ y : Word,
    wordEq none y = .error (.uninitializedRead .leftOperand) ∧ wordLt none y = .error (.uninitializedRead .leftOperand) ∧
    wordLe none y = .error (.uninitializedRead .leftOperand) ∧ wordGt none y = .error (.uninitializedRead .leftOperand) ∧
    wordGe none y = .error (.uninitializedRead .leftOperand)) ∧
  (∀ x : Value,
    wordEq (some x) none = .error (.uninitializedRead .rightOperand) ∧
    wordLt (some x) none = .error (.uninitializedRead .rightOperand) ∧
    wordLe (some x) none = .error (.uninitializedRead .rightOperand) ∧
    wordGt (some x) none = .error (.uninitializedRead .rightOperand) ∧
    wordGe (some x) none = .error (.uninitializedRead .rightOperand))

/-- R110, R111: a register write initialises that slot alone and writes no flag and no cell; a read gives the last written
value, or fails with `UninitializedRead(r)` on a never-written slot, and changes nothing. For each of the nine slots. -/
def Obligations.RegisterReadsGiveTheLastWrite : Prop :=
  ∀ (s : State) (r : Reg) (v : Value),
    readReg r (s.setReg r v) = .ok v (s.setReg r v) ∧ SameRegsExcept [r] s (s.setReg r v) ∧
    SameMemory s (s.setReg r v) ∧ SameControl s (s.setReg r v) ∧
    (s.regs.get r = none → readReg r s = .error (.uninitializedRead (.reg r)) s) ∧
    (s.regs.get r = some v → readReg r s = .ok v s)

/-- R116: a whole write of PS sets every flag at once to the bits of the value, and a whole read after a flag write gives the
value with that bit changed. -/
def Obligations.PsIsOneRegisterUnderBothViews : Prop :=
  ∀ (s : State) (v : Value) (f : Flag) (b : Bool),
    readFlag config f (s.setReg .ps v) = .ok (valueBit v f.bit) (s.setReg .ps v) ∧
    ∃ q, readReg .ps ((s.setReg .ps v).setFlag config f b) = .ok q ((s.setReg .ps v).setFlag config f b) ∧
      ∀ k, valueBit q k = (if k = f.bit then b else valueBit v k)

/-- R114: a flag write is a read-modify-write of one bit of PS: the flag then reads as written, every other bit of PS and every
other register is unchanged, the old and the new value differ in that bit or not at all, and a never-written PS counts as 0. -/
def Obligations.FlagWriteChangesOneBit : Prop :=
  ∀ (c : Config) (s : State) (f : Flag) (b : Bool),
    ∃ q, (s.setFlag c f b).regs.ps = some q ∧ readFlag c f (s.setFlag c f b) = .ok b (s.setFlag c f b) ∧
      (∀ k, k ≠ f.bit → valueBit q k = valueBit (s.regs.ps.getD 0#16) k) ∧
      (q ^^^ s.regs.ps.getD 0#16 = 0#16 ∨ q ^^^ s.regs.ps.getD 0#16 = BitVec.twoPow 16 f.bit.val) ∧
      SameRegsExcept [.ps] s (s.setFlag c f b) ∧ SameMemory s (s.setFlag c f b) ∧
      SameControl s (s.setFlag c f b)

/-- R115: `recalcFromAccumulator` sets `Z` from the whole value of AC and `N` from its bit `SIGN_BIT`, changes no other bit of
PS and no other register, never leaves both at 1, and fails before any write if AC is `none`. -/
def Obligations.RecalcSetsZeroAndSignOnly : Prop :=
  ∀ (s : State),
    (s.regs.ac = none → recalcFromAccumulator config s = .error (.uninitializedRead (.reg .ac)) s) ∧
    (∀ a, s.regs.ac = some a →
      ∃ t q, recalcFromAccumulator config s = .ok () t ∧ t.regs.ps = some q ∧
        (valueBit q 2 = true ↔ a.toNat = 0) ∧ valueBit q 3 = valueBit a 7 ∧
        ¬ (valueBit q 2 = true ∧ valueBit q 3 = true) ∧
        (∀ k, k ≠ 2 → k ≠ 3 → valueBit q k = valueBit (s.regs.ps.getD 0#16) k) ∧
        SameRegsExcept [.ps] s t ∧ SameMemory s t ∧ SameControl s t)

/-! ## The instructions of T0 -/

/-- R181 (LDI). -/
def Obligations.LdiWritesTheZeroExtendedImmediate : Prop :=
  (∀ w, opcodeOf w = 0x00#8 → select w = .ok ⟨0, .ldi (imm8Of w)⟩) ∧
  ∀ (imm8 : BitVec 8) (s : State), s.runFlag = true →
    ∃ t v, exec (.ldi imm8) s = .next t ∧ t.regs.ac = some v ∧ v.toNat = imm8.toNat ∧
      SameRegsExcept [.ac] s t ∧ SameMemory s t ∧ SameControl s t

/-- R182 (LDA): the load, and its two errors with AR already written, DR and AC as they were. -/
def Obligations.LdaLoadsThroughTheBus : Prop :=
  (∀ w, opcodeOf w = 0x01#8 → select w = .ok ⟨1, fun t => .ok (.lda t)⟩) ∧
  ∀ (a : Value) (s : State),
    (∀ v, s.runFlag = true → a.toNat < 2048 → s.mem.read a.toNat = some v →
      ∃ t, exec (.lda a) s = .next t ∧ t.regs.ac = some v ∧ t.regs.ar = some a ∧ t.regs.dr = some v ∧
        SameRegsExcept [.ac, .ar, .dr] s t ∧ SameMemory s t ∧ SameControl s t) ∧
    (2048 ≤ a.toNat →
      ∃ t, exec (.lda a) s = .next t ∧ t.phase = .faulted (.addressOutOfRange a.toNat) ∧ t.regs.ar = some a ∧
        SameRegsExcept [.ar] s t ∧ SameMemory s t ∧ t.trace = s.trace) ∧
    (a.toNat < 2048 → s.mem.read a.toNat = none →
      ∃ t, exec (.lda a) s = .next t ∧ t.phase = .faulted (.uninitializedRead (.cell a.toNat)) ∧
        t.regs.ar = some a ∧ SameRegsExcept [.ar] s t ∧ SameMemory s t ∧ t.trace = s.trace)

/-- R183 (STA): the store, and its two errors. -/
def Obligations.StaStoresThroughTheBus : Prop :=
  (∀ w, opcodeOf w = 0x02#8 → select w = .ok ⟨1, fun t => .ok (.sta t)⟩) ∧
  ∀ (a : Value) (s : State),
    (∀ v, s.runFlag = true → s.regs.ac = some v → a.toNat < 2048 →
      ∃ t, exec (.sta a) s = .next t ∧ t.mem.read a.toNat = some v ∧ SameMemoryExcept a.toNat s t ∧
        t.regs.ar = some a ∧ t.regs.dr = some v ∧ SameRegsExcept [.ar, .dr] s t ∧ SameControl s t) ∧
    (∀ v, s.regs.ac = some v → 2048 ≤ a.toNat →
      ∃ t, exec (.sta a) s = .next t ∧ t.phase = .faulted (.addressOutOfRange a.toNat) ∧ t.regs.ar = some a ∧
        t.regs.dr = some v ∧ SameRegsExcept [.ar, .dr] s t ∧ SameMemory s t ∧ t.trace = s.trace) ∧
    (s.regs.ac = none →
      ∃ t, exec (.sta a) s = .next t ∧ t.phase = .faulted (.uninitializedRead (.reg .ac)) ∧
        SameRegsExcept [] s t ∧ SameMemory s t ∧ t.trace = s.trace)

/-- R184 (INC). -/
def Obligations.IncAddsOneWithoutFlags : Prop :=
  (∀ w, opcodeOf w = 0x03#8 → select w = .ok ⟨0, .inc⟩) ∧
  ∀ s : State,
    (∀ v, s.runFlag = true → s.regs.ac = some v →
      ∃ t x, exec .inc s = .next t ∧ t.regs.ac = some x ∧ x.toNat = (v.toNat + 1) % 65536 ∧
        SameRegsExcept [.ac] s t ∧ SameMemory s t ∧ SameControl s t) ∧
    (s.regs.ac = none →
      ∃ t, exec .inc s = .next t ∧ t.phase = .faulted (.uninitializedRead (.reg .ac)) ∧
        SameRegsExcept [] s t ∧ SameMemory s t ∧ t.trace = s.trace)

/-- R185 (TST). -/
def Obligations.TstRecomputesZeroAndSign : Prop :=
  (∀ w, opcodeOf w = 0x04#8 → select w = .ok ⟨0, .tst⟩) ∧
  ∀ s : State,
    (∀ a, s.runFlag = true → s.regs.ac = some a →
      ∃ t q, exec .tst s = .next t ∧ t.regs.ps = some q ∧ (valueBit q 2 = true ↔ a.toNat = 0) ∧
        valueBit q 3 = valueBit a 7 ∧ SamePsBitsExcept [2, 3] s t ∧ SameRegsExcept [.ps] s t ∧
        SameMemory s t ∧ SameControl s t) ∧
    (s.regs.ac = none →
      ∃ t, exec .tst s = .next t ∧ t.phase = .faulted (.uninitializedRead (.reg .ac)) ∧
        SameRegsExcept [] s t ∧ SameMemory s t ∧ t.trace = s.trace)

/-- R186 (JMP): IP only; a target outside memory is written as it is, and the next step's fetch raises `AddressOutOfRange` with
BR = AR = the target. -/
def Obligations.JmpWritesIpOnly : Prop :=
  (∀ w, opcodeOf w = 0x05#8 → select w = .ok ⟨1, fun t => .ok (.jmp t)⟩) ∧
  ∀ (a : Value) (s : State), s.runFlag = true →
    ∃ t, exec (.jmp a) s = .next t ∧ t.regs.ip = some a ∧ SameRegsExcept [.ip] s t ∧ SameMemory s t ∧
      SameControl s t ∧
      (∀ kind, s.phase = .running kind → 2048 ≤ a.toNat →
        ∃ u, step t = .next u ∧ u.phase = .faulted (.addressOutOfRange a.toNat) ∧ u.regs.br = some a ∧
          u.regs.ar = some a)

/-- R187 (JZ): the jump is taken exactly if bit 2 of PS is 1 as it stands. -/
def Obligations.JzJumpsExactlyOnTheZeroFlag : Prop :=
  (∀ w, opcodeOf w = 0x06#8 → select w = .ok ⟨1, fun t => .ok (.jz t)⟩) ∧
  ∀ (a p : Value) (s : State), s.regs.ps = some p → valueBit p 7 = true →
    ∃ t, exec (.jz a) s = .next t ∧ t.regs.ip = (if valueBit p 2 then some a else s.regs.ip) ∧
      SameRegsExcept [.ip] s t ∧ SameMemory s t ∧ SameControl s t

/-- R188 (SETF): bit `k` only, for each of the 16 bits. -/
def Obligations.SetfSetsOneBit : Prop :=
  (∀ w, opcodeOf w = 0x07#8 → select w = .ok ⟨0, .setf (bitIndexOf w)⟩) ∧
  ∀ (k : BitIndex) (s : State), s.runFlag = true →
    ∃ t q, exec (.setf k) s = .next t ∧ t.regs.ps = some q ∧ valueBit q k = true ∧ SamePsBitsExcept [k] s t ∧
      SameRegsExcept [.ps] s t ∧ SameMemory s t ∧ SameControl s t

/-- R189 (CLRF): bit `k` only; `CLRF 7` clears `RUN` and the model refuses the run at that point. -/
def Obligations.ClrfClearsOneBitAndRunIsRefused : Prop :=
  (∀ w, opcodeOf w = 0x08#8 → select w = .ok ⟨0, .clrf (bitIndexOf w)⟩) ∧
  (∀ (k : BitIndex) (s : State), s.runFlag = true → k ≠ 7 →
    ∃ t q, exec (.clrf k) s = .next t ∧ t.regs.ps = some q ∧ valueBit q k = false ∧ SamePsBitsExcept [k] s t ∧
      SameRegsExcept [.ps] s t ∧ SameMemory s t ∧ SameControl s t) ∧
  (∀ s : State, exec (.clrf 7) s = .refused .runFlagCleared)

/-- R190 (HLT): writes nothing itself; the engine clears `RUN` and the phase becomes `halted`; IP stays one past the word. -/
def Obligations.HltEndsTheRun : Prop :=
  (∀ w, opcodeOf w = 0xFF#8 → select w = .ok ⟨0, .hlt⟩) ∧
  ∀ s : State,
    ∃ t q, exec .hlt s = .next t ∧ t.phase = .halted ∧ t.regs.ps = some q ∧ valueBit q 7 = false ∧
      (∀ k, k ≠ 7 → valueBit q k = valueBit (s.regs.ps.getD 0#16) k) ∧ SameRegsExcept [.ps] s t ∧
      SameMemory s t ∧ t.trace = s.trace
end

