-- ==== Sys2Proof/Laws/State.lean ====
section
/-! SUPPORT. What each update of State does to each field, once, so that no later proof unfolds a record update. -/

namespace Sys2Proof.Machine

variable (c : Config) (s : State) (f : RegFile) (r q : Reg) (v : Value) (k : BitIndex) (b : Bool)

/-! ### The register file -/

theorem RegFile.get_set : (f.set r v).get q = if q = r then some v else f.get q := by
  cases r <;> cases q <;> rfl

@[simp] theorem RegFile.get_set_self : (f.set r v).get r = some v := by simp [RegFile.get_set]

theorem RegFile.get_set_other (h : q ≠ r) : (f.set r v).get q = f.get q := by simp [RegFile.get_set, h]

@[simp] theorem RegFile.get_reset : RegFile.reset.get r = none := by cases r <;> rfl

theorem RegFile.get_ext {f g : RegFile} (h : ∀ r, f.get r = g.get r) : f = g := by
  cases f
  cases g
  have := h .ac; have := h .dr; have := h .br; have := h .cr; have := h .ps
  have := h .ip; have := h .sp; have := h .input; have := h .ar
  simp_all [RegFile.get]

theorem RegFile.get_ps : f.get .ps = f.ps := rfl
theorem RegFile.get_ip : f.get .ip = f.ip := rfl

/-! ### setReg -/

@[simp] theorem State.setReg_regs : (s.setReg r v).regs = s.regs.set r v := rfl
@[simp] theorem State.setReg_mem : (s.setReg r v).mem = s.mem := rfl
@[simp] theorem State.setReg_phase : (s.setReg r v).phase = s.phase := rfl
@[simp] theorem State.setReg_trace : (s.setReg r v).trace = s.trace := rfl

/-! ### setRegBit and setFlag -/

@[simp] theorem State.setRegBit_regs : (s.setRegBit c r k b).regs = s.regs.set r (setBit c (s.regs.get r) k b) := rfl
@[simp] theorem State.setRegBit_mem : (s.setRegBit c r k b).mem = s.mem := rfl
@[simp] theorem State.setRegBit_phase : (s.setRegBit c r k b).phase = s.phase := rfl
@[simp] theorem State.setRegBit_trace : (s.setRegBit c r k b).trace = s.trace := rfl

@[simp] theorem State.setFlag_regs (g : Flag) :
    (s.setFlag c g b).regs = s.regs.set .ps (setBit c s.regs.ps g.bit b) := rfl
@[simp] theorem State.setFlag_mem (g : Flag) : (s.setFlag c g b).mem = s.mem := rfl
@[simp] theorem State.setFlag_phase (g : Flag) : (s.setFlag c g b).phase = s.phase := rfl
@[simp] theorem State.setFlag_trace (g : Flag) : (s.setFlag c g b).trace = s.trace := rfl

/-! ### The end of a run -/

@[simp] theorem State.abort_regs (e : Error) : (s.abort e).regs = s.regs := rfl
@[simp] theorem State.abort_mem (e : Error) : (s.abort e).mem = s.mem := rfl
@[simp] theorem State.abort_phase (e : Error) : (s.abort e).phase = .faulted e := rfl
@[simp] theorem State.abort_trace (e : Error) : (s.abort e).trace = s.trace := rfl

@[simp] theorem State.halt_regs : (s.halt c).regs = s.regs.set .ps (setBit c s.regs.ps 7 false) := rfl
@[simp] theorem State.halt_mem : (s.halt c).mem = s.mem := rfl
@[simp] theorem State.halt_phase : (s.halt c).phase = .halted := rfl
@[simp] theorem State.halt_trace : (s.halt c).trace = s.trace := rfl

/-! ### The trace event -/

@[simp] theorem State.emit_regs (kind : RunKind) (a w : Value) : (s.emit kind a w).regs = s.regs := by
  cases kind <;> rfl
@[simp] theorem State.emit_mem (kind : RunKind) (a w : Value) : (s.emit kind a w).mem = s.mem := by
  cases kind <;> rfl
@[simp] theorem State.emit_phase (kind : RunKind) (a w : Value) : (s.emit kind a w).phase = s.phase := by
  cases kind <;> rfl
@[simp] theorem State.emit_run (a w : Value) : s.emit .run a w = s := rfl
@[simp] theorem State.emit_trace (a w : Value) :
    (s.emit .trace a w).trace = s.trace ++ [{ addr := a, opcode := w }] := rfl

/-! ### The start of a run -/

@[simp] theorem State.beginRun_regs (kind : RunKind) (a : Value) :
    (s.beginRun c kind a).regs = (s.regs.set .ps (setBit c s.regs.ps 7 true)).set .ip a := rfl
@[simp] theorem State.beginRun_mem (kind : RunKind) (a : Value) : (s.beginRun c kind a).mem = s.mem := rfl
@[simp] theorem State.beginRun_phase (kind : RunKind) (a : Value) :
    (s.beginRun c kind a).phase = .running kind := rfl
@[simp] theorem State.beginRun_trace (kind : RunKind) (a : Value) : (s.beginRun c kind a).trace = s.trace := rfl

/-! ### Reset -/

@[simp] theorem State.reset_regs : State.reset.regs = RegFile.reset := rfl
@[simp] theorem State.reset_mem : State.reset.mem = [] := rfl
@[simp] theorem State.reset_phase : State.reset.phase = .idle := rfl
@[simp] theorem State.reset_trace : State.reset.trace = [] := rfl

end Sys2Proof.Machine
end

