-- ==== Sys2Proof/Laws/Word.lean ====
section
/-! SUPPORT. Bits of values, and the spec lemmas of the Word operations. -/

namespace Sys2Proof.Machine

/-- A bit write sets its bit and keeps every other (R96). -/
theorem valueBit_setValueBit (v : Value) (i j : BitIndex) (b : Bool) :
    valueBit (setValueBit v i b) j = if j = i then b else valueBit v j := by
  have hj := j.isLt
  have hi := i.isLt
  by_cases h : j = i
  · subst h
    cases b <;> simp [valueBit, setValueBit]
  · have hne : (j : Nat) ≠ i := fun e => h (Fin.ext e)
    have hbit : ((1#16 <<< (i : Nat)).getLsbD (j : Nat)) = false := by
      simp only [BitVec.getLsbD_shiftLeft, BitVec.getLsbD_one]
      rcases Nat.lt_or_ge j i with hlt | hge
      · simp [hlt]
      · have : (j : Nat) - i ≠ 0 := by omega
        simp [this]
    cases b <;>
      simp only [valueBit, setValueBit, BitVec.getLsbD_or, BitVec.getLsbD_and, BitVec.getLsbD_not, hbit, hj, h,
        BitVec.getLsbD_zero, decide_true, Bool.not_false, Bool.and_true, Bool.or_false, if_true, if_false,
        Bool.false_eq_true]

/-- Two values with the same bits are equal. -/
theorem value_ext_bits {v w : Value} (h : ∀ k : BitIndex, valueBit v k = valueBit w k) : v = w :=
  BitVec.eq_of_getLsbD_eq fun i hi => h ⟨i, hi⟩

@[simp] theorem initialValue_eq (b : BitWriteUninit) : initialValue b = 0#16 := by cases b; rfl

@[simp] theorem valueBit_zero (k : BitIndex) : valueBit 0#16 k = false := by simp [valueBit]

theorem setBit_none (c : Config) (i : BitIndex) (b : Bool) : setBit c none i b = setValueBit 0#16 i b := by
  simp [setBit]

@[simp] theorem setBit_some (c : Config) (v : Value) (i : BitIndex) (b : Bool) :
    setBit c (some v) i b = setValueBit v i b := rfl

/-- The bits of a Word after a bit write (R96); a never-written Word counts as 0. -/
theorem valueBit_setBit (c : Config) (x : Word) (i j : BitIndex) (b : Bool) :
    valueBit (setBit c x i b) j = if j = i then b else valueBit (x.getD 0#16) j := by
  cases x <;> simp [setBit_none, valueBit_setValueBit]

@[simp] theorem getBit_some (c : Config) (what : Subject) (v : Value) (i : BitIndex) :
    getBit c what (some v) i = .ok (valueBit v i) := rfl

@[simp] theorem getBit_none (c : Config) (what : Subject) (i : BitIndex) :
    getBit c what none i = .error (.uninitializedRead what) := by
  simp [getBit]

/-- Writing a bit the value it has changes nothing (R96). -/
theorem setValueBit_same (v : Value) (i : BitIndex) : setValueBit v i (valueBit v i) = v :=
  value_ext_bits fun k => by
    rw [valueBit_setValueBit]
    split <;> simp_all

theorem incrementValue_toNat (v : Value) : (incrementValue v).toNat = (v.toNat + 1) % 65536 := by
  simp [incrementValue]

theorem runFlag_eq {s : State} {p : Value} (h : s.regs.ps = some p) : s.runFlag = valueBit p 7 := by
  simp [State.runFlag, h]

/-- `RUN` is set exactly if PS holds a value whose bit 7 is 1. -/
theorem runFlag_true_iff (s : State) : s.runFlag = true ↔ ∃ p, s.regs.ps = some p ∧ valueBit p 7 = true := by
  cases h : s.regs.ps <;> simp [State.runFlag, h]

end Sys2Proof.Machine
end

