-- ==== Sys2Proof/Laws/Memory.lean ====
section
/-! SUPPORT. Memory: read after write, and that every memory operation keeps the canonical form. -/

namespace Sys2Proof.Machine

@[simp] theorem Memory.read_nil (a : Nat) : Memory.read [] a = none := rfl

/-- Read after write: the written cell holds the value, every other cell what it held. -/
theorem Memory.read_write (m : Memory) (a b : Nat) (v : Value) :
    (m.write a v).read b = if b = a then some v else m.read b := by
  induction m with
  | nil => rfl
  | cons e m ih =>
    obtain ⟨k, w⟩ := e
    simp only [Memory.write]
    by_cases h1 : a < k
    · simp only [h1, if_true]
      rfl
    · by_cases h2 : a = k
      · subst h2
        simp only [h1, if_false, if_true, Memory.read]
        split <;> rfl
      · simp only [h1, h2, if_false, Memory.read, ih]
        by_cases hb : b = k
        · have : ¬ b = a := fun e => h2 (e.symm.trans hb)
          subst hb
          simp [this]
        · simp [hb]

@[simp] theorem Memory.read_write_self (m : Memory) (a : Nat) (v : Value) : (m.write a v).read a = some v := by
  simp [Memory.read_write]

theorem Memory.read_write_other (m : Memory) {a b : Nat} (v : Value) (h : b ≠ a) :
    (m.write a v).read b = m.read b := by
  simp [Memory.read_write, h]

/-- A higher lower bound is stronger. -/
theorem Memory.wfFrom_mono {size low low' : Nat} {m : Memory} (h : Memory.wfFrom size low m = true) (hle : low' ≤ low) :
    Memory.wfFrom size low' m = true := by
  cases m with
  | nil => rfl
  | cons e m =>
    simp only [Memory.wfFrom, Bool.and_eq_true, decide_eq_true_eq] at h ⊢
    exact ⟨⟨by omega, h.1.2⟩, h.2⟩

theorem Memory.wfFrom_write {size : Nat} (a : Nat) (v : Value) (ha : a < size) :
    ∀ (m : Memory) (low : Nat), Memory.wfFrom size low m = true → low ≤ a →
      Memory.wfFrom size low (m.write a v) = true
  | [], low, _, hle => by simp [Memory.write, Memory.wfFrom, hle, ha]
  | (k, w) :: m, low, h, hle => by
    simp only [Memory.wfFrom, Bool.and_eq_true, decide_eq_true_eq] at h
    simp only [Memory.write]
    split
    · simp only [Memory.wfFrom, Bool.and_eq_true, decide_eq_true_eq]
      exact ⟨⟨hle, ha⟩, ⟨by omega, h.1.2⟩, h.2⟩
    · split
      · subst_vars
        simp only [Memory.wfFrom, Bool.and_eq_true, decide_eq_true_eq]
        exact ⟨h.1, h.2⟩
      · simp only [Memory.wfFrom, Bool.and_eq_true, decide_eq_true_eq]
        exact ⟨h.1, wfFrom_write a v ha m (k + 1) h.2 (by omega)⟩

/-- A write inside memory keeps the canonical form. -/
theorem Memory.wf_write {size : Nat} {m : Memory} (h : m.wf size = true) {a : Nat} (v : Value) (ha : a < size) :
    (m.write a v).wf size = true :=
  Memory.wfFrom_write a v ha m 0 h (Nat.zero_le a)

theorem Memory.read_of_lt_wfFrom {size : Nat} : ∀ {m : Memory} {low a : Nat},
    Memory.wfFrom size low m = true → a < low → m.read a = none
  | [], _, _, _, _ => rfl
  | (k, w) :: m, low, a, h, hlt => by
    simp only [Memory.wfFrom, Bool.and_eq_true, decide_eq_true_eq] at h
    have hk : a ≠ k := by omega
    simp only [Memory.read, hk, if_false]
    exact read_of_lt_wfFrom h.2 (by omega)

/-- No cell outside memory is ever written. -/
theorem Memory.read_of_wf {size : Nat} {m : Memory} {a : Nat} (h : m.wf size = true) (ha : size ≤ a) :
    m.read a = none := by
  suffices hh : ∀ (m : Memory) (low : Nat), Memory.wfFrom size low m = true → m.read a = none from hh m 0 h
  intro m
  induction m with
  | nil => intros; rfl
  | cons e m ih =>
    intro low h
    simp only [Memory.wfFrom, Bool.and_eq_true, decide_eq_true_eq] at h
    have hk : a ≠ e.1 := by omega
    simp only [Memory.read, hk, if_false]
    exact ih _ h.2

/-- The canonical form is one: two memories in it that read alike are equal. -/
theorem Memory.wfFrom_ext {size : Nat} : ∀ {m n : Memory} {low : Nat}, Memory.wfFrom size low m = true →
    Memory.wfFrom size low n = true → (∀ a, m.read a = n.read a) → m = n
  | [], [], _, _, _, _ => rfl
  | [], (k, w) :: n, _, _, _, h => by simpa [Memory.read] using h k
  | (k, w) :: m, [], _, _, _, h => by simpa [Memory.read] using h k
  | (k, w) :: m, (k', w') :: n, low, hm, hn, h => by
    simp only [Memory.wfFrom, Bool.and_eq_true, decide_eq_true_eq] at hm hn
    have hk : k = k' := by
      rcases Nat.lt_trichotomy k k' with hlt | heq | hgt
      · have hne : k ≠ k' := by omega
        have := h k
        simp [Memory.read, hne, read_of_lt_wfFrom hn.2 (show k < k' + 1 by omega)] at this
      · exact heq
      · have hne : k' ≠ k := by omega
        have := h k'
        simp [Memory.read, hne, read_of_lt_wfFrom hm.2 (show k' < k + 1 by omega)] at this
    subst hk
    have hw : w = w' := by simpa [Memory.read] using h k
    subst hw
    have : m = n := wfFrom_ext hm.2 hn.2 fun a => by
      by_cases ha : a = k
      · subst ha
        rw [read_of_lt_wfFrom hm.2 (Nat.lt_succ_self a), read_of_lt_wfFrom hn.2 (Nat.lt_succ_self a)]
      · simpa [Memory.read, ha] using h a
    rw [this]

/-- Equal reads are equal memories, in the canonical form. -/
theorem Memory.ext_of_wf {size : Nat} {m n : Memory} (hm : m.wf size = true) (hn : n.wf size = true)
    (h : ∀ a, m.read a = n.read a) : m = n :=
  Memory.wfFrom_ext hm hn h

/-- Plain write keeps the canonical form (R46). -/
theorem plainWrite_wf {c : Config} {m m' : Memory} {a : Nat} {v : Value} (h : m.wf c.memSize = true)
    (hw : plainWrite c m a v = .ok m') : m'.wf c.memSize = true := by
  unfold plainWrite at hw
  split at hw
  · cases hw
    exact Memory.wf_write h v ‹_›
  · cases hw

/-- The cells of an image are in the canonical form (R47). -/
theorem imageCells_wfFrom {size : Nat} : ∀ (bytes : List Byte) (a : Nat), a + bytes.length / 2 ≤ size →
    Memory.wfFrom size a (imageCells a bytes) = true
  | [], _, _ => rfl
  | [_], _, _ => rfl
  | high :: low :: rest, a, h => by
    simp only [List.length_cons] at h
    simp only [imageCells, Memory.wfFrom, Bool.and_eq_true, decide_eq_true_eq]
    exact ⟨⟨Nat.le_refl a, by omega⟩, imageCells_wfFrom rest (a + 1) (by omega)⟩

/-- `load` keeps the canonical form (R47). -/
theorem loadMemory_wf {c : Config} {bytes : List Byte} {m : Memory} (h : loadMemory c bytes = .ok m) :
    m.wf c.memSize = true := by
  unfold loadMemory at h
  split at h
  · cases h
    exact imageCells_wfFrom bytes 0 (by omega)
  · cases h

/-- The reset memory is in the canonical form. -/
theorem reset_mem_wf (size : Nat) : Memory.wf size State.reset.mem = true := rfl

/-- Placing words inside memory keeps the canonical form. -/
theorem Memory.writeWords_wf {size : Nat} : ∀ (ws : List Value) {m : Memory} {a : Nat}, m.wf size = true →
    a + ws.length ≤ size → (Memory.writeWords m a ws).wf size = true
  | [], _, _, h, _ => h
  | w :: ws, m, a, h, hle => by
    simp only [List.length_cons] at hle
    exact writeWords_wf ws (Memory.wf_write h w (by omega)) (by omega)

end Sys2Proof.Machine
end

