-- ==== Sys2Proof/Laws/Ops.lean ====
section
/-! SUPPORT. One spec lemma per shared operation: everything it can do. And one principle: what every register write and
every memory write inside memory keeps, every routine keeps. -/

namespace Sys2Proof.Machine

variable {c : Config} {s t : State} {r : Reg} {a v : Value}

@[simp] theorem Result.bind_ok {α β : Type} (x : α) (s : State) (f : α → State → Result β) :
    (Result.ok x s).bind f = f x s := rfl
@[simp] theorem Result.bind_error {α β : Type} (e : Error) (s : State) (f : α → State → Result β) :
    (Result.error e s : Result α).bind f = .error e s := rfl
@[simp] theorem Result.state_ok {α : Type} (x : α) (s : State) : (Result.ok x s).state = s := rfl
@[simp] theorem Result.state_error {α : Type} (e : Error) (s : State) : (Result.error e s : Result α).state = s := rfl

/-! ### Register access -/

theorem readReg_some (h : s.regs.get r = some v) : readReg r s = .ok v s := by simp [readReg, h]

theorem readReg_none (h : s.regs.get r = none) : readReg r s = .error (.uninitializedRead (.reg r)) s := by
  simp [readReg, h]

/-- A register read gives the slot's value and changes nothing (R110). -/
theorem readReg_eq_ok : readReg r s = .ok v t ↔ t = s ∧ s.regs.get r = some v := by
  cases h : s.regs.get r <;> simp [readReg, h, eq_comm, and_comm]

@[simp] theorem readReg_state : (readReg r s).state = s := by
  cases h : s.regs.get r <;> simp [readReg, h]

theorem readBit_some (k : BitIndex) (h : s.regs.get r = some v) : readBit c r k s = .ok (valueBit v k) s := by
  simp [readBit, h]

theorem readBit_none (k : BitIndex) (h : s.regs.get r = none) :
    readBit c r k s = .error (.uninitializedRead (.reg r)) s := by
  simp [readBit, h]

@[simp] theorem readBit_state (k : BitIndex) : (readBit c r k s).state = s := by
  cases h : s.regs.get r <;> simp [readBit, h]

/-! ### The bus port -/

theorem memRead_ok (ha : a.toNat < c.memSize) (hv : s.mem.read a.toNat = some v) :
    memRead c a s = .ok v ((s.setReg .ar a).setReg .dr v) := by
  simp [memRead, plainRead, ha, hv]

theorem memRead_range (ha : c.memSize ≤ a.toNat) :
    memRead c a s = .error (.addressOutOfRange a.toNat) (s.setReg .ar a) := by
  simp [memRead, plainRead, Nat.not_lt.mpr ha]

theorem memRead_uninit (ha : a.toNat < c.memSize) (hv : s.mem.read a.toNat = none) :
    memRead c a s = .error (.uninitializedRead (.cell a.toNat)) (s.setReg .ar a) := by
  simp [memRead, plainRead, ha, hv]

/-- The three ends of a bus read (R44). -/
theorem memRead_cases (c : Config) (a : Value) (s : State) :
    (∃ v, a.toNat < c.memSize ∧ s.mem.read a.toNat = some v ∧
      memRead c a s = .ok v ((s.setReg .ar a).setReg .dr v)) ∨
    (∃ e, memRead c a s = .error e (s.setReg .ar a)) := by
  rcases Nat.lt_or_ge a.toNat c.memSize with ha | ha
  · cases hv : s.mem.read a.toNat with
    | none => exact .inr ⟨_, memRead_uninit ha hv⟩
    | some v => exact .inl ⟨v, ha, rfl, memRead_ok ha hv⟩
  · exact .inr ⟨_, memRead_range ha⟩

theorem memWrite_ok (ha : a.toNat < c.memSize) :
    memWrite c a v s = .ok () { (s.setReg .ar a).setReg .dr v with mem := s.mem.write a.toNat v } := by
  simp [memWrite, plainWrite, ha]

theorem memWrite_range (ha : c.memSize ≤ a.toNat) :
    memWrite c a v s = .error (.addressOutOfRange a.toNat) ((s.setReg .ar a).setReg .dr v) := by
  simp [memWrite, plainWrite, Nat.not_lt.mpr ha]

/-! ### recalcFromAccumulator -/

theorem recalc_ok (h : s.regs.ac = some a) : recalcFromAccumulator c s =
    .ok () ((s.setFlag c .zero (valueIsZero a)).setFlag c .sign (valueSign c a)) := by
  simp [recalcFromAccumulator, readReg_some (r := .ac) (v := a) h]

theorem recalc_none (h : s.regs.ac = none) :
    recalcFromAccumulator c s = .error (.uninitializedRead (.reg .ac)) s := by
  simp [recalcFromAccumulator, readReg_none (r := .ac) h]

/-! ### What every operation keeps -/

/-- `P` survives every register write and every memory write inside memory. -/
structure Stable (c : Config) (P : State → Prop) : Prop where
  setReg : ∀ s r v, P s → P (s.setReg r v)
  write : ∀ s a v, a < c.memSize → P s → P { s with mem := s.mem.write a v }

variable {P : State → Prop}

theorem memRead_stable (hP : Stable c P) (h : P s) : P (memRead c a s).state := by
  rcases memRead_cases c a s with ⟨v, _, _, e⟩ | ⟨_, e⟩ <;> rw [e]
  · exact hP.setReg _ _ _ (hP.setReg _ _ _ h)
  · exact hP.setReg _ _ _ h

theorem memWrite_stable (hP : Stable c P) (h : P s) : P (memWrite c a v s).state := by
  have h2 := hP.setReg _ .dr v (hP.setReg s .ar a h)
  rcases Nat.lt_or_ge a.toNat c.memSize with ha | ha
  · rw [memWrite_ok ha]
    exact hP.write _ a.toNat v ha h2
  · rw [memWrite_range ha]
    exact h2

theorem recalc_stable (hP : Stable c P) (h : P s) : P (recalcFromAccumulator c s).state := by
  cases hac : s.regs.ac with
  | none =>
    rw [recalc_none hac]
    exact h
  | some a =>
    rw [recalc_ok hac]
    exact hP.setReg _ _ _ (hP.setReg _ _ _ h)

/-- If the first part keeps `P` and the rest keeps it from any state with `P`, the whole keeps it. -/
theorem bind_stable {α β : Type} {x : Result α} {f : α → State → Result β} (hx : P x.state)
    (hf : ∀ y t, P t → P (f y t).state) : P (x.bind f).state := by
  cases x with
  | ok y t => exact hf y t hx
  | error e t => exact hx

/-- Whatever an instruction's `execute` does, it keeps what the register and memory writes keep (R141, R142). -/
theorem Routine.run_stable (hP : Stable c P) (p : Routine) : ∀ s, P s → P (p.run c s).state := by
  induction p with
  | done sig => intro s h; exact h
  | raise e => intro s h; exact h
  | readReg r next ih => intro s h; exact bind_stable (by simpa using h) fun v t ht => ih v t ht
  | writeReg r v next ih => intro s h; exact ih _ (hP.setReg _ _ _ h)
  | readBit r i next ih => intro s h; exact bind_stable (by simpa using h) fun b t ht => ih b t ht
  | writeBit r i b next ih => intro s h; exact ih _ (hP.setReg _ _ _ h)
  | recalc next ih => intro s h; exact bind_stable (recalc_stable hP h) fun _ t ht => ih t ht
  | busRead a next ih => intro s h; exact bind_stable (memRead_stable hP h) fun v t ht => ih v t ht
  | busWrite a v next ih => intro s h; exact bind_stable (memWrite_stable hP h) fun _ t ht => ih t ht

theorem stable_phase (c : Config) (p : Phase) : Stable c (fun s => s.phase = p) := ⟨fun _ _ _ h => h, fun _ _ _ _ h => h⟩

theorem stable_trace (c : Config) (l : List TraceEvent) : Stable c (fun s => s.trace = l) :=
  ⟨fun _ _ _ h => h, fun _ _ _ _ h => h⟩

theorem stable_wf (c : Config) : Stable c (fun s => s.mem.wf c.memSize = true) :=
  ⟨fun _ _ _ h => h, fun _ _ v ha h => Memory.wf_write h v ha⟩

/-- "No operation returns a slot to `none`" (R13). -/
theorem stable_isSome (c : Config) (q : Reg) : Stable c (fun s => (s.regs.get q).isSome = true) :=
  ⟨fun s r v h => by
    simp only [State.setReg_regs, RegFile.get_set]
    split
    · rfl
    · exact h, fun _ _ _ _ h => h⟩

end Sys2Proof.Machine
end

