-- ==== Sys2Proof/Laws/Engine.lean ====
section
/-! SUPPORT. Everything a step can do: the ends of the fetch, of the operand fetches, of the outcome handling, and of the
step. -/

namespace Sys2Proof.Machine

variable {c : Config} {s t : State} {a w v : Value} {ι : Type}

/-- The state after a fetch at `a` that read `w` (R133). -/
def fetched (c : Config) (s : State) (a w : Value) : State :=
  ((((s.setReg .br a).setReg .ar a).setReg .dr w).setReg .cr w).setReg .ip (advance c a)

/-- The fetch that succeeds (R133). -/
theorem fetch_ok (hip : s.regs.ip = some a) (ha : a.toNat < c.memSize) (hw : s.mem.read a.toNat = some w) :
    fetch c s = .ok (a, w) (fetched c s a w) := by
  simp only [fetch, readReg_some (r := .ip) (v := a) hip, Result.bind_ok]
  rw [memRead_ok (s := s.setReg .br a) ha hw]
  rfl

/-- The fetch outside memory: BR and AR are written, "IP still holds `a`" (R133). -/
theorem fetch_range (hip : s.regs.ip = some a) (ha : c.memSize ≤ a.toNat) :
    fetch c s = .error (.addressOutOfRange a.toNat) ((s.setReg .br a).setReg .ar a) := by
  simp only [fetch, readReg_some (r := .ip) (v := a) hip, Result.bind_ok]
  rw [memRead_range ha]
  rfl

/-- The fetch of a never-written cell (R133). -/
theorem fetch_uninit (hip : s.regs.ip = some a) (ha : a.toNat < c.memSize) (hw : s.mem.read a.toNat = none) :
    fetch c s = .error (.uninitializedRead (.cell a.toNat)) ((s.setReg .br a).setReg .ar a) := by
  simp only [fetch, readReg_some (r := .ip) (v := a) hip, Result.bind_ok]
  rw [memRead_uninit (s := s.setReg .br a) ha hw]
  rfl

theorem fetch_noIp (hip : s.regs.ip = none) : fetch c s = .error (.uninitializedRead (.reg .ip)) s := by
  simp [fetch, readReg_none (r := .ip) hip]

/-- A fetch that gives a word read it from the cell at IP. -/
theorem fetch_eq_ok {p : Value × Value} (h : fetch c s = .ok p t) :
    s.regs.ip = some p.1 ∧ p.1.toNat < c.memSize ∧ s.mem.read p.1.toNat = some p.2 ∧ t = fetched c s p.1 p.2 := by
  cases hip : s.regs.ip with
  | none =>
    rw [fetch_noIp hip] at h
    cases h
  | some a =>
    rcases Nat.lt_or_ge a.toNat c.memSize with ha | ha
    · cases hw : s.mem.read a.toNat with
      | none =>
        rw [fetch_uninit hip ha hw] at h
        cases h
      | some w =>
        rw [fetch_ok hip ha hw] at h
        cases h
        exact ⟨rfl, ha, hw, rfl⟩
    · rw [fetch_range hip ha] at h
      cases h

/-- A failed fetch has written nothing (IP was `none`) or BR and AR (R133). -/
theorem fetch_eq_error {e : Error} (h : fetch c s = .error e t) :
    (s.regs.ip = none ∧ t = s) ∨ ∃ a, s.regs.ip = some a ∧ t = (s.setReg .br a).setReg .ar a := by
  cases hip : s.regs.ip with
  | none =>
    rw [fetch_noIp hip] at h
    cases h
    exact .inl ⟨rfl, rfl⟩
  | some a =>
    refine .inr ⟨a, rfl, ?_⟩
    rcases Nat.lt_or_ge a.toNat c.memSize with ha | ha
    · cases hw : s.mem.read a.toNat with
      | none =>
        rw [fetch_uninit hip ha hw] at h
        cases h
        rfl
      | some w =>
        rw [fetch_ok hip ha hw] at h
        cases h
    · rw [fetch_range hip ha] at h
      cases h
      rfl

variable {P : State → Prop}

theorem fetch_stable (hP : Stable c P) (h : P s) : P (fetch c s).state :=
  bind_stable (by simpa using h) fun _ _ ht =>
    bind_stable (memRead_stable hP (hP.setReg _ _ _ ht)) fun _ _ ht => hP.setReg _ _ _ (hP.setReg _ _ _ ht)

/-- The operand fetch that succeeds (R143). -/
theorem fetchOperand_ok (hip : s.regs.ip = some a) (ha : a.toNat < c.memSize) (hv : s.mem.read a.toNat = some v) :
    fetchOperand c s = .ok v (((s.setReg .ar a).setReg .dr v).setReg .ip (advance c a)) := by
  simp only [fetchOperand, readReg_some (r := .ip) (v := a) hip, Result.bind_ok]
  rw [memRead_ok ha hv]
  rfl

theorem fetchOperand_stable (hP : Stable c P) (h : P s) : P (fetchOperand c s).state :=
  bind_stable (by simpa using h) fun _ _ ht => bind_stable (memRead_stable hP ht) fun _ _ ht => hP.setReg _ _ _ ht

theorem fetchOperands_stable (hP : Stable c P) : ∀ (n : Nat) (k : Operands ι n) (s : State), P s →
    P (fetchOperands c n k s).state
  | 0, _, _, h => h
  | n + 1, k, _, h => bind_stable (fetchOperand_stable hP h) fun v t ht => by
    cases k v with
    | error e => exact ht
    | ok k' => exact fetchOperands_stable hP n k' t ht

theorem parse_stable {select : Value → Except IsetError (Selection ι)} (hP : Stable c P) (h : P s) :
    P (parse c select w s).state := by
  unfold parse
  split
  · exact h
  · exact fetchOperands_stable hP _ _ _ h

theorem fetchParse_stable {select : Value → Except IsetError (Selection ι)} (hP : Stable c P) (h : P s) :
    P (fetchParse c select s).state :=
  bind_stable (fetch_stable hP h) fun _ _ ht => bind_stable (parse_stable hP ht) fun _ _ ht => ht

/-- `parse` leaves every register but AR, DR and IP alone (R140 (b), R143). -/
theorem fetchOperands_frame : ∀ (n : Nat) (k : Operands ι n) (s : State),
    SameRegsExcept [.ar, .dr, .ip] s (fetchOperands c n k s).state ∧ (fetchOperands c n k s).state.mem = s.mem
  | 0, _, _ => ⟨fun _ _ => rfl, rfl⟩
  | n + 1, k, s => by
    simp only [fetchOperands]
    have hstep : SameRegsExcept [.ar, .dr, .ip] s (fetchOperand c s).state ∧ (fetchOperand c s).state.mem = s.mem := by
      cases hip : s.regs.ip with
      | none => simp [fetchOperand, readReg_none (r := .ip) hip, SameRegsExcept]
      | some a =>
        simp only [fetchOperand, readReg_some (r := .ip) (v := a) hip, Result.bind_ok]
        rcases memRead_cases c a s with ⟨v, _, _, e⟩ | ⟨_, e⟩ <;> rw [e] <;>
          simp +contextual [SameRegsExcept, RegFile.get_set]
    cases hf : fetchOperand c s with
    | error e u =>
      rw [hf] at hstep
      exact hstep
    | ok v u =>
      rw [hf] at hstep
      simp only [Result.bind_ok]
      cases k v with
      | error e => exact hstep
      | ok k' =>
        have ih := fetchOperands_frame n k' u
        exact ⟨fun r hr => (ih.1 r hr).trans (hstep.1 r hr), ih.2.trans hstep.2⟩

/-- The ends of the outcome handling (R136, R137, R138). -/
theorem complete_cases (c : Config) (x : Result Signal) :
    (∃ u, x = .ok .halt u ∧ complete c x = .next (u.halt c)) ∨
    (∃ u, x = .ok .continues u ∧ u.runFlag = true ∧ complete c x = .next u) ∨
    (∃ u p, x = .ok .continues u ∧ u.regs.ps = some p ∧ u.runFlag = false ∧
      complete c x = .refused .runFlagCleared) ∨
    (∃ u, x = .ok .continues u ∧ u.regs.ps = none ∧
      complete c x = .next (u.abort (.uninitializedRead (.reg .ps)))) ∨
    (∃ e u, x = .error e u ∧ complete c x = .next (u.abort e)) := by
  cases x with
  | error e u => exact .inr (.inr (.inr (.inr ⟨e, u, rfl, rfl⟩)))
  | ok sig u =>
    cases sig with
    | halt => exact .inl ⟨u, rfl, rfl⟩
    | continues =>
      cases hps : u.regs.ps with
      | none =>
        refine .inr (.inr (.inr (.inl ⟨u, rfl, hps, ?_⟩)))
        simp [complete, readFlag, readBit_none (r := .ps) _ hps]
      | some p =>
        cases hb : valueBit p 7 with
        | true =>
          refine .inr (.inl ⟨u, rfl, (runFlag_eq hps).trans hb, ?_⟩)
          have hb' : valueBit p Flag.running.bit = true := hb
          simp [complete, readFlag, readBit_some (r := .ps) _ hps, hb']
        | false =>
          refine .inr (.inr (.inl ⟨u, p, rfl, hps, (runFlag_eq hps).trans hb, ?_⟩))
          have hb' : valueBit p Flag.running.bit = false := hb
          simp [complete, readFlag, readBit_some (r := .ps) _ hps, hb']

/-- `Continue` with `RUN` = 1: the run goes on from the state `execute` left. -/
theorem complete_continue (h : s.runFlag = true) : complete c (.ok .continues s) = .next s := by
  obtain ⟨p, hp, hb⟩ := (runFlag_true_iff s).mp h
  have hb' : valueBit p Flag.running.bit = true := hb
  simp [complete, readFlag, readBit_some (r := .ps) _ hp, hb']

/-- A step that answers a next state was taken in a run, and either ran the parsed instruction or aborted before it. -/
theorem stepBy_next {select : Value → Except IsetError (Selection ι)}
    {exec : ι → State → Host.Outcome State Fault Refusal} (h : stepBy c select exec s = .next t) :
    ∃ kind, s.phase = .running kind ∧
      ((∃ a w i u, fetchParse c select s = .ok (a, w, i) u ∧ exec i (u.emit kind a w) = .next t) ∨
       (∃ e u, fetchParse c select s = .error e u ∧ t = u.abort e)) := by
  unfold stepBy at h
  cases hph : s.phase with
  | idle => simp [hph] at h
  | halted => simp [hph] at h
  | faulted e => simp [hph] at h
  | running kind =>
    refine ⟨kind, rfl, ?_⟩
    simp only [hph] at h
    split at h
    · rename_i a w i u hfp
      exact .inl ⟨a, w, i, u, hfp, h⟩
    · rename_i e u hfp
      cases h
      exact .inr ⟨e, u, hfp, rfl⟩

/-- T0's step is the engine bound to the instruction unit T0 (R161, R180). -/
theorem step_eq_engineStep : step = engineStep config unitT0 := by
  have h : exec = fun i s => complete config ((t0Execute i).run config s) := by
    funext i s
    cases i <;> rfl
  unfold step
  rw [h]
  rfl

/-- The meaning of every instruction is its routine run by the engine. -/
theorem exec_eq_complete (i : Instr) (s : State) : exec i s = complete config ((t0Execute i).run config s) := by
  cases i <;> rfl

end Sys2Proof.Machine
end

