-- ==== Sys2Proof/Laws/Decode.lean ====
section
/-! SUPPORT. The fields of an opcode word, the bytes of a cell, and what `select` and `decode` can answer. -/

namespace Sys2Proof

theorem getLsbD_joinBytes (high low : Byte) (i : Nat) :
    (joinBytes high low).getLsbD i = if i < 8 then low.getLsbD i else high.getLsbD (i - 8) := by
  simp only [joinBytes, BitVec.getLsbD_or, BitVec.getLsbD_shiftLeft, BitVec.getLsbD_setWidth]
  by_cases h8 : i < 8
  · simp [h8, show i < 16 by omega]
  · by_cases h16 : i < 16
    · simp [h8, h16, BitVec.getLsbD_of_ge low i (by omega), show i - 8 < 16 by omega]
    · simp [h8, h16, BitVec.getLsbD_of_ge high (i - 8) (by omega)]

@[simp] theorem highByte_joinBytes (high low : Byte) : highByte (joinBytes high low) = high :=
  BitVec.eq_of_getLsbD_eq fun i hi => by simp [highByte, getLsbD_joinBytes, hi]

@[simp] theorem lowByte_joinBytes (high low : Byte) : lowByte (joinBytes high low) = low :=
  BitVec.eq_of_getLsbD_eq fun i hi => by simp [lowByte, getLsbD_joinBytes, hi]

/-- The bytes of a cell are the cell (R49). -/
@[simp] theorem joinBytes_highByte_lowByte (v : Value) : joinBytes (highByte v) (lowByte v) = v :=
  BitVec.eq_of_getLsbD_eq fun i hi => by
    rw [getLsbD_joinBytes]
    split
    · rename_i h
      simp [lowByte, h]
    · simp [highByte, show i - 8 < 8 by omega, show 8 + (i - 8) = i by omega]

theorem joinBytes_toNat (high low : Byte) : (joinBytes high low).toNat = high.toNat * 256 + low.toNat := by
  have hh := high.isLt
  have hl := low.isLt
  have h1 : (high.setWidth 16 <<< 8 : Value).toNat = high.toNat * 256 := by
    simp only [BitVec.toNat_shiftLeft, BitVec.toNat_setWidth, Nat.shiftLeft_eq]
    omega
  have h2 : (low.setWidth 16 : Value).toNat = low.toNat := by
    simp only [BitVec.toNat_setWidth]
    omega
  rw [joinBytes, BitVec.toNat_or, h1, h2, Nat.mul_comm, show (256 : Nat) = 2 ^ 8 from rfl,
    Nat.two_pow_add_eq_or_of_lt hl]

/-- Words survive the image (R47 to R49). -/
@[simp] theorem wordsOfBytes_bytesOfWords : ∀ ws : List Value, wordsOfBytes (bytesOfWords ws) = ws
  | [] => rfl
  | w :: ws => by simp [bytesOfWords, wordsOfBytes, wordsOfBytes_bytesOfWords ws]

@[simp] theorem opcodeOf_opcodeWord (op imm8 : BitVec 8) : opcodeOf (opcodeWord op imm8) = op :=
  highByte_joinBytes op imm8

@[simp] theorem imm8Of_opcodeWord (op imm8 : BitVec 8) : imm8Of (opcodeWord op imm8) = imm8 :=
  lowByte_joinBytes op imm8

/-- An opcode word is its two fields (R73). -/
theorem opcodeWord_fields (w : Value) : opcodeWord (opcodeOf w) (imm8Of w) = w := joinBytes_highByte_lowByte w

theorem bitIndexOf_opcodeWord (op : BitVec 8) (k : BitIndex) :
    bitIndexOf (opcodeWord op (BitVec.ofNat 8 k.val)) = k := by
  have h : (opcodeWord op (BitVec.ofNat 8 k.val)).extractLsb' 0 4 = BitVec.ofNat 4 k.val :=
    BitVec.eq_of_getLsbD_eq fun i hi => by
      simp only [BitVec.getLsbD_extractLsb', opcodeWord, Nat.zero_add, getLsbD_joinBytes, BitVec.getLsbD_ofNat, hi,
        show i < 8 by omega, decide_true, Bool.true_and, if_true]
  apply Fin.ext
  simp only [bitIndexOf, h, BitVec.toFin_ofNat]
  exact Nat.mod_eq_of_lt k.isLt

/-- The opcode words `select` rejects (R76). -/
theorem select_illegal {w : Value} (h : 9 ≤ (opcodeOf w).toNat) (h' : (opcodeOf w).toNat ≤ 0xFE) :
    select w = .error (.illegalOpcode w) := by
  unfold select
  split <;> first | omega | rfl

/-- Everything `select` can answer with: one case per row of R75's table, and the illegal words. -/
theorem select_cases (w : Value) :
    (opcodeOf w = 0x00#8 ∧ select w = .ok ⟨0, .ldi (imm8Of w)⟩) ∨
    (opcodeOf w = 0x01#8 ∧ select w = .ok ⟨1, fun t => .ok (.lda t)⟩) ∨
    (opcodeOf w = 0x02#8 ∧ select w = .ok ⟨1, fun t => .ok (.sta t)⟩) ∨
    (opcodeOf w = 0x03#8 ∧ select w = .ok ⟨0, .inc⟩) ∨
    (opcodeOf w = 0x04#8 ∧ select w = .ok ⟨0, .tst⟩) ∨
    (opcodeOf w = 0x05#8 ∧ select w = .ok ⟨1, fun t => .ok (.jmp t)⟩) ∨
    (opcodeOf w = 0x06#8 ∧ select w = .ok ⟨1, fun t => .ok (.jz t)⟩) ∨
    (opcodeOf w = 0x07#8 ∧ select w = .ok ⟨0, .setf (bitIndexOf w)⟩) ∨
    (opcodeOf w = 0x08#8 ∧ select w = .ok ⟨0, .clrf (bitIndexOf w)⟩) ∨
    (opcodeOf w = 0xFF#8 ∧ select w = .ok ⟨0, .hlt⟩) ∨
    (9 ≤ (opcodeOf w).toNat ∧ (opcodeOf w).toNat ≤ 0xFE ∧ select w = .error (.illegalOpcode w)) := by
  have hop : ∀ n, (opcodeOf w).toNat = n → opcodeOf w = BitVec.ofNat 8 n := fun n h => by
    rw [← h, BitVec.ofNat_toNat, BitVec.setWidth_eq]
  have hlt := (opcodeOf w).isLt
  unfold select
  split <;> rename_i h
  · exact .inl ⟨hop _ h, rfl⟩
  · exact .inr (.inl ⟨hop _ h, rfl⟩)
  · exact .inr (.inr (.inl ⟨hop _ h, rfl⟩))
  · exact .inr (.inr (.inr (.inl ⟨hop _ h, rfl⟩)))
  · exact .inr (.inr (.inr (.inr (.inl ⟨hop _ h, rfl⟩))))
  · exact .inr (.inr (.inr (.inr (.inr (.inl ⟨hop _ h, rfl⟩)))))
  · exact .inr (.inr (.inr (.inr (.inr (.inr (.inl ⟨hop _ h, rfl⟩))))))
  · exact .inr (.inr (.inr (.inr (.inr (.inr (.inr (.inl ⟨hop _ h, rfl⟩)))))))
  · exact .inr (.inr (.inr (.inr (.inr (.inr (.inr (.inr (.inl ⟨hop _ h, rfl⟩))))))))
  · exact .inr (.inr (.inr (.inr (.inr (.inr (.inr (.inr (.inr (.inl ⟨hop _ h, rfl⟩)))))))))
  · simp only [imp_false] at *
    exact .inr (.inr (.inr (.inr (.inr (.inr (.inr (.inr (.inr (.inr ⟨by omega, by omega, trivial⟩)))))))))

/-- A word that decodes alone selects an instruction with no operand word. -/
theorem select_of_decode_one {w : Value} {i : Instr} (h : decode [w] = .ok (i, [])) : select w = .ok ⟨0, i⟩ := by
  simp only [decode] at h
  split at h
  · cases h
  · rename_i sel hs
    obtain ⟨n, b⟩ := sel
    match n, b, hs, h with
    | 0, b, hs, h =>
      simp only [feed, Except.ok.injEq, Prod.mk.injEq, and_true] at h
      rw [hs, h]
    | n + 1, b, hs, h => simp [feed] at h

/-- Two words that decode together: the first selects an instruction with one operand word. -/
theorem select_of_decode_two {w v : Value} {i : Instr} (h : decode [w, v] = .ok (i, [])) :
    ∃ f : Operands Instr 1, select w = .ok ⟨1, f⟩ ∧ f v = .ok i := by
  simp only [decode] at h
  split at h
  · cases h
  · rename_i sel hs
    obtain ⟨n, b⟩ := sel
    match n, b, hs, h with
    | 0, b, hs, h => simp [feed] at h
    | 1, b, hs, h =>
      simp only [feed] at h
      cases hb : b v with
      | error e => simp [hb] at h
      | ok j =>
        simp only [hb, Except.ok.injEq, Prod.mk.injEq, and_true] at h
        exact ⟨b, hs, hb.trans (congrArg _ h)⟩
    | n + 2, b, hs, h =>
      simp only [feed] at h
      split at h <;> cases h

end Sys2Proof
end

