-- ==== Sys2Proof/Laws/PerInstr.lean ====
section
/-! SUPPORT. Statements made per instruction. The family Encoding: the opcode word and the length of each instruction are
those of the table of spec/30_encoding.md R75, and the bits an instruction ignores are assembled as 0 (R78). -/

namespace Sys2Proof.Laws.Encoding

/-- `op` of each instruction (R75). -/
def opcode : Instr → BitVec 8
  | .ldi _ => 0x00
  | .lda _ => 0x01
  | .sta _ => 0x02
  | .inc => 0x03
  | .tst => 0x04
  | .jmp _ => 0x05
  | .jz _ => 0x06
  | .setf _ => 0x07
  | .clrf _ => 0x08
  | .hlt => 0xFF

/-- How many operand words each instruction takes (R75). -/
def operandWords : Instr → Nat
  | .ldi _ => 0
  | .lda _ => 1
  | .sta _ => 1
  | .inc => 0
  | .tst => 0
  | .jmp _ => 1
  | .jz _ => 1
  | .setf _ => 0
  | .clrf _ => 0
  | .hlt => 0

/-- The words of `i` are an opcode word with the table's `op` and no ignored bit set, and as many operand words as the table
says. -/
def Statement (i : Instr) : Prop :=
  ∃ w operands, encode i = w :: operands ∧ opcodeOf w = opcode i ∧ w &&& opcodeMask i = w ∧
    operands.length = operandWords i

/-- The statement from its four parts. -/
theorem of_head {i : Instr} {w : Value} {operands : List Value} (h : encode i = w :: operands)
    (ho : opcodeOf w = opcode i) (hm : w &&& opcodeMask i = w) (hn : operands.length = operandWords i) :
    Statement i :=
  ⟨w, operands, h, ho, hm, hn⟩

theorem ldi (imm8 : BitVec 8) : Statement (.ldi imm8) :=
  of_head rfl (opcodeOf_opcodeWord _ _) (BitVec.and_allOnes (w := 16)) rfl

theorem lda (addr16 : Value) : Statement (.lda addr16) := of_head rfl (opcodeOf_opcodeWord _ _) (by simp only [opcodeMask]; decide) rfl

theorem sta (addr16 : Value) : Statement (.sta addr16) := of_head rfl (opcodeOf_opcodeWord _ _) (by simp only [opcodeMask]; decide) rfl

theorem inc : Statement .inc := of_head rfl (by decide) (by decide) rfl

theorem tst : Statement .tst := of_head rfl (by decide) (by decide) rfl

theorem jmp (addr16 : Value) : Statement (.jmp addr16) := of_head rfl (opcodeOf_opcodeWord _ _) (by simp only [opcodeMask]; decide) rfl

theorem jz (addr16 : Value) : Statement (.jz addr16) := of_head rfl (opcodeOf_opcodeWord _ _) (by simp only [opcodeMask]; decide) rfl

theorem setf (k : BitIndex) : Statement (.setf k) :=
  of_head rfl (opcodeOf_opcodeWord _ _) (by simp only [opcodeMask]; revert k; decide) rfl

theorem clrf (k : BitIndex) : Statement (.clrf k) :=
  of_head rfl (opcodeOf_opcodeWord _ _) (by simp only [opcodeMask]; revert k; decide) rfl

theorem hlt : Statement .hlt := of_head rfl (by decide) (by decide) rfl

end Sys2Proof.Laws.Encoding
end

