-- ==== Sys2Proof/Tests/Slice0.lean ====
section
/-! SUPPORT. Small tests: the checks on statements, words written out from the spec's encodings, one step of each instruction
against the vectors of spec/95_test_vectors.md, and for each obligation with hypotheses a state that meets them. -/

namespace Sys2Proof.Tests

open Sys2Proof Sys2Proof.Machine

/-- Two cells of memory instead of 2048, for the obligations that hold of any parameters. -/
def twoCells : Config := { config with memSize := 2 }

/-! ## WellFormed: a well-formed statement, and an ill-formed one for each check (R78) -/

theorem test_wellFormed_ldi : Statement.wellFormed [] (.ldi 255) = true ∧ Statement.wellFormed [] (.ldi 256) = false := by
  decide

theorem test_wellFormed_address :
    Statement.wellFormed [] (.lda (.address 65535)) = true ∧ Statement.wellFormed [] (.lda (.address 65536)) = false ∧
    Statement.wellFormed [] (.sta (.address 65536)) = false ∧ Statement.wellFormed [] (.jmp (.address 65536)) = false ∧
    Statement.wellFormed [] (.jz (.address 65536)) = false := by
  decide

theorem test_wellFormed_label :
    Statement.wellFormed [("loop", 4)] (.jmp (.label "loop")) = true ∧
    Statement.wellFormed [("loop", 4)] (.jmp (.label "end")) = false := by
  decide

theorem test_wellFormed_bit :
    Statement.wellFormed [] (.setf (.bit 15)) = true ∧ Statement.wellFormed [] (.setf (.bit 16)) = false ∧
    Statement.wellFormed [] (.clrf (.bit 16)) = false := by
  decide

theorem test_wellFormed_flag_name :
    Statement.wellFormed [] (.clrf (.name "RUN")) = true ∧ Statement.wellFormed [] (.clrf (.name "Q")) = false := by
  decide

theorem test_wellFormed_directives :
    Statement.wellFormed [] (.dw 65535) = true ∧ Statement.wellFormed [] (.dw 65536) = false ∧
    Statement.wellFormed [] (.org 65535) = true ∧ Statement.wellFormed [] (.org 65536) = false := by
  decide

/-- The short names of R78 stand for the bits of R20. -/
theorem test_flag_names :
    flagNames.map Prod.snd =
      [Flag.carry, .overflow, .zero, .sign, .interruptEnable, .interruptPending, .running, .parity].map Flag.bit := by
  decide

/-! ## Words written out from R73 to R75 -/

/-- Every row of the opcode table, from the bits of its first word (and an operand word of zeros). -/
theorem test_decode_table_words :
    decodeTableWord 16 0b0000000000101010 = some (.ldi 0x2A) ∧ decodeTableWord 16 0b0000000100000000 = some (.lda 0) ∧
    decodeTableWord 16 0b0000001011111111 = some (.sta 0) ∧ decodeTableWord 16 0b0000001100000000 = some .inc ∧
    decodeTableWord 16 0b0000010000000000 = some .tst ∧ decodeTableWord 16 0b0000010100000000 = some (.jmp 0) ∧
    decodeTableWord 16 0b0000011000000000 = some (.jz 0) ∧ decodeTableWord 16 0b0000011111111000 = some (.setf 8) ∧
    decodeTableWord 16 0b0000100010100010 = some (.clrf 2) ∧ decodeTableWord 16 0b1111111110101011 = some .hlt := by
  decide

/-- The operand word is bits 31..16 of a two-word row. -/
theorem test_decode_operand_word :
    decodeTableWord 32 0x07FF0100 = some (.lda 0x07FF) ∧ decodeTableWord 32 0x80000500 = some (.jmp 0x8000) := by
  decide

theorem test_decode_rejects :
    decode [] = .error .empty ∧ decode [0x0900] = .error (.rejected (.illegalOpcode 0x0900)) ∧
    decode [0xFE12] = .error (.rejected (.illegalOpcode 0xFE12)) ∧ decode [0x0600] = .error (.missingOperand 0x0600) := by
  decide

/-- The words of program P1 and of the two-word instructions of program P3. -/
theorem test_encode :
    encode (.ldi 0x2A) = [0x002A] ∧ encode .hlt = [0xFF00] ∧ encode (.lda 0x0010) = [0x0100, 0x0010] ∧
    encode (.sta 0x0010) = [0x0200, 0x0010] ∧ encode (.jz 0x000A) = [0x0600, 0x000A] ∧
    encode (.jmp 0x0000) = [0x0500, 0x0000] ∧ encode (.setf 8) = [0x0708] ∧ encode (.clrf 7) = [0x0807] := by
  decide

/-- Program P1's image. -/
theorem test_assemble_P1 :
    assembleImage [⟨none, .ldi 0x2A⟩, ⟨none, .hlt⟩] = some [0x00, 0x2A, 0xFF, 0x00] := by
  decide

/-- Program P5 with labels in place of its addresses. -/
theorem test_assemble_P5 :
    assembleImage [⟨none, .lda (.label "word")⟩, ⟨none, .sta (.label "self")⟩, ⟨some "self", .jmp (.label "self")⟩,
        ⟨none, .org 8⟩, ⟨some "word", .dw 0xFF00⟩] =
      some [0x01, 0x00, 0x00, 0x08, 0x02, 0x00, 0x00, 0x04, 0x05, 0x00, 0x00, 0x04, 0, 0, 0, 0, 0xFF, 0x00] := by
  decide

/-- Lines of programs P3, P4 and P5 as the spec prints them, a label, and lines that are no line. -/
theorem test_read_lines :
    readTokens (tokensOf "LDA 0x0010   ; 0x0100 0x0010".toList) = some ⟨none, .lda (.address 0x10)⟩ ∧
    readTokens (tokensOf "SETF C       ; 0x0700".toList) = some ⟨none, .setf (.name "C")⟩ ∧
    readTokens (tokensOf "self: JMP self".toList) = some ⟨some "self", .jmp (.label "self")⟩ ∧
    readTokens (tokensOf "DW  0xFFFE".toList) = some ⟨none, .dw 65534⟩ ∧
    readTokens (tokensOf "ldi 1".toList) = none ∧ readTokens (tokensOf "INC 1".toList) = none ∧
    readTokens (tokensOf "2x: INC".toList) = none ∧ readTokens (tokensOf ": INC".toList) = none ∧
    readTokens (tokensOf "ORG here".toList) = none := by
  decide

/-- A label before each directive, and a label past the last address (log entry 25). -/
theorem test_directive_labels :
    labelsFrom 0 [⟨some "x", .org 8⟩, ⟨some "y", .dw 7⟩] = [("x", 0), ("y", 8)] ∧
    labelsFrom 65535 [⟨some "x", .dw 1⟩, ⟨some "y", .dw 2⟩] = [("x", 65535)] := by
  decide

/-- The host's whole use of an instance: construct it with its unit, load, run (R160, R161, program P1). -/
theorem test_host_run :
    ∃ i j, hostLoad twoCells [0x00, 0x2A, 0xFF, 0x00] (hostConstruct unitT0) = .done () i ∧
      hostRun twoCells .trace 0 2 i = .returned j ∧ j.state.regs.ac = some 0x2A ∧
      j.state.trace = [⟨0, 0x002A⟩, ⟨1, 0xFF00⟩] :=
  ⟨_, _, rfl, rfl, rfl, rfl⟩

/-- Program P1's text. -/
theorem test_assemble_text_P1 : assembleText "LDI 0x2A     ; 0x002A\nHLT          ; 0xFF00\n" = some [0x00, 0x2A, 0xFF, 0x00] := by
  decide

/-! ## Words, flags and memory -/

/-- V1.3, V1.9, V1.11, V1.13, V1.19, V1.21, V1.26, V1.29, V1.32, V1.34, V1.33. -/
theorem test_words :
    fromUnsigned 65536 = some 0 ∧ isZero (some 0x0100) = .ok false ∧ signBit config (some 0x0080) = .ok true ∧
    signBit config (some 0x8000) = .ok false ∧ increment (some 0xFFFF) = .ok (some 0) ∧
    setBit config none 7 true = 0x0080 ∧ bitIndex? 16 = .error .bitIndex ∧
    getBit config .operand none 0 = .error (.uninitializedRead .operand) ∧
    wordEq none none = .error (.uninitializedRead .leftOperand) ∧ wordLt (some 0x7FFF) (some 0x8000) = .ok true ∧
    wordEq (some 5) none = .error (.uninitializedRead .rightOperand) := by
  decide

/-- A state of a run: `runAt` or trace, AC, PS, IP and memory; the other registers were never written. -/
def cpu (kind : RunKind) (ac : Word) (ps ip : Value) (mem : Memory) : State :=
  { regs := { RegFile.reset with ac := ac, ps := some ps, ip := some ip }, mem := mem, phase := .running kind, trace := [] }

/-- What `f` reads in the next state. -/
def after {α : Type} (f : State → α) : Host.Outcome State Fault Refusal → Option α
  | .next t => some (f t)
  | _ => none

/-- The error that aborted the run, if one did. -/
def faultedWith (s : State) : Option Error :=
  match s.phase with
  | .faulted e => some e
  | _ => none

/-- V2.19: AC = 0, PS = `0x01FB`; V2.18: AC = `0xFFFF`, PS = `0x0184`. -/
theorem test_recalc :
    (recalcFromAccumulator config (cpu .run (some 0) 0x01FB 0 [])).state.regs.ps = some 0x01F7 ∧
    (recalcFromAccumulator config (cpu .run (some 0xFFFF) 0x0184 0 [])).state.regs.ps = some 0x0188 := by
  decide

/-- V3.8: AR is written, DR is not; V3.13: both are. -/
theorem test_bus_range :
    (memRead config 0x0800 (cpu .run none 0x80 0 [])).state.regs.ar = some 0x0800 ∧
    (memRead config 0x0800 (cpu .run none 0x80 0 [])).state.regs.dr = none ∧
    (memWrite config 0x0800 0x2A (cpu .run none 0x80 0 [])).state.regs.dr = some 0x2A := by
  decide

/-- The byte image of a memory of two cells: E6's first bytes. -/
theorem test_load_dump :
    loadMemory { config with memSize := 2 } [0x03, 0x0A, 0x11, 0x18] = .ok [(0, 0x030A), (1, 0x1118)] ∧
    dumpMemory { config with memSize := 2 } [(0, 0x030A), (1, 0x1118)] = .ok [0x03, 0x0A, 0x11, 0x18] := by
  decide

theorem test_memory_canonical :
    Memory.wf 2048 (Memory.write [(3, 1), (5, 2)] 4 9) = true ∧ Memory.write [(3, 1), (5, 2)] 4 9 = [(3, 1), (4, 9), (5, 2)] ∧
    Memory.wf 2048 [(5, 2), (3, 1)] = false ∧ Memory.wf 2048 [(2048, 0)] = false := by
  decide

/-! ## One step of each instruction -/

/-- V5.2: no sign extension. -/
theorem test_ldi :
    after (fun t => (t.regs.ac, t.regs.ip)) (step (cpu .trace (some 0x1234) 0x80 0 [(0, 0x00FF)])) =
      some (some 0x00FF, some 1) := by
  decide

/-- V5.4. -/
theorem test_lda :
    after (fun t => [t.regs.ac, t.regs.dr, t.regs.br, t.regs.cr, t.regs.ip, t.regs.ar])
        (step (cpu .trace none 0x80 0 [(0, 0x0100), (1, 0x0010), (0x10, 0xFFFE)])) =
      some [some 0xFFFE, some 0xFFFE, some 0, some 0x0100, some 2, some 0x10] := by
  decide

/-- V5.5: the load outside memory; the event stays. -/
theorem test_lda_range :
    after (fun t => (faultedWith t, t.regs.ac, t.regs.dr, t.regs.ar, t.trace))
        (step (cpu .trace none 0x80 0 [(0, 0x0100), (1, 0x0800)])) =
      some (some (.addressOutOfRange 2048), none, some 0x0800, some 0x0800, [⟨0, 0x0100⟩]) := by
  decide

/-- V5.10. -/
theorem test_sta :
    after (fun t => (t.mem.read 0x10, t.regs.ar, t.regs.dr, t.regs.ip))
        (step (cpu .trace (some 0xFFFF) 0x80 3 [(3, 0x0200), (4, 0x0010), (0x10, 0xFFFE)])) =
      some (some 0xFFFF, some 0x10, some 0xFFFF, some 5) := by
  decide

/-- V5.11: AC never written; DR and AR hold the operand fetch's values. -/
theorem test_sta_uninitialized :
    after (fun t => (faultedWith t, t.regs.dr, t.regs.ar, t.mem.read 5))
        (step (cpu .trace none 0x80 0 [(0, 0x0200), (1, 0x0005)])) =
      some (some (.uninitializedRead (.reg .ac)), some 5, some 1, none) := by
  decide

/-- V5.14: the wrap sets no flag. -/
theorem test_inc_wraps :
    after (fun t => (t.regs.ac, t.regs.ps)) (step (cpu .trace (some 0xFFFF) 0x80 0 [(0, 0x0300)])) =
      some (some 0, some 0x80) := by
  decide

/-- V4.10: AC never written. -/
theorem test_inc_uninitialized :
    after (fun t => (faultedWith t, t.regs.ps, t.trace)) (step (cpu .trace none 0x80 0 [(0, 0x0300)])) =
      some (some (.uninitializedRead (.reg .ac)), some 0x80, [⟨0, 0x0300⟩]) := by
  decide

/-- V5.16. -/
theorem test_tst_zero :
    after (fun t => t.regs.ps) (step (cpu .trace (some 0) 0x88 0 [(0, 0x0400)])) = some (some 0x84) := by
  decide

/-- V5.17. -/
theorem test_tst_sign :
    after (fun t => t.regs.ps) (step (cpu .trace (some 0x80) 0x80 0 [(0, 0x0400)])) = some (some 0x88) := by
  decide

/-- V5.19. -/
theorem test_jmp :
    after (fun t => [t.regs.ip, t.regs.br, t.regs.cr, t.regs.ar, t.regs.dr])
        (step (cpu .trace none 0x80 8 [(8, 0x0500), (9, 0x0000)])) =
      some [some 0, some 8, some 0x0500, some 9, some 0] := by
  decide

/-- V5.20, first step: a target outside memory is no error. -/
theorem test_jmp_outside :
    after (fun t => (t.regs.ip, faultedWith t)) (step (cpu .trace none 0x80 0 [(0, 0x0500), (1, 0x0800)])) =
      some (some 0x0800, none) := by
  decide

/-- V5.21. -/
theorem test_jz_taken :
    after (fun t => t.regs.ip) (step (cpu .trace none 0x84 6 [(6, 0x0600), (7, 0x000A)])) = some (some 0x000A) := by
  decide

/-- V5.22. -/
theorem test_jz_not_taken :
    after (fun t => t.regs.ip) (step (cpu .trace none 0x88 6 [(6, 0x0600), (7, 0x000A)])) = some (some 8) := by
  decide

/-- V5.28: bits 7..4 of the word are ignored. -/
theorem test_setf :
    after (fun t => t.regs.ps) (step (cpu .trace none 0x8090 0 [(0, 0x07F2)])) = some (some 0x8094) := by
  decide

/-- V5.25: bit 8. -/
theorem test_setf_parity :
    after (fun t => t.regs.ps) (step (cpu .trace none 0x0081 0 [(0, 0x0708)])) = some (some 0x0181) := by
  decide

/-- V5.29. -/
theorem test_clrf :
    after (fun t => t.regs.ps) (step (cpu .trace none 0x8094 0 [(0, 0x08A2)])) = some (some 0x8090) := by
  decide

/-- V5.32: clearing `RUN` is refused. -/
theorem test_clrf_run :
    (match step (cpu .trace none 0x80 0 [(0, 0x0807)]) with
      | .refused r => some r
      | _ => none) = some .runFlagCleared := by
  decide

/-- V5.34. -/
theorem test_hlt :
    after (fun t => (t.phase, t.regs.ps, t.regs.dr, t.regs.cr)) (step (cpu .trace none 0x8090 1 [(1, 0xFFAB)])) =
      some (.halted, some 0x8010, some 0xFFAB, some 0xFFAB) := by
  decide

/-- V4.6: the last cell. -/
theorem test_hlt_last_cell :
    after (fun t => (t.phase, t.regs.br, t.regs.ip, t.trace)) (step (cpu .trace none 0x80 2047 [(2047, 0xFF00)])) =
      some (.halted, some 0x07FF, some 0x0800, [⟨0x07FF, 0xFF00⟩]) := by
  decide

/-- V4.2: nothing loaded. -/
theorem test_fetch_uninitialized :
    after (fun t => (faultedWith t, [t.regs.br, t.regs.ar, t.regs.dr, t.regs.cr, t.regs.ip]))
        (step (cpu .run none 0x80 0 [])) =
      some (some (.uninitializedRead (.cell 0)), [some 0, some 0, none, none, some 0]) := by
  decide

/-- V4.8: an illegal opcode word; no event. -/
theorem test_illegal :
    after (fun t => (faultedWith t, t.regs.cr, t.regs.ip, t.trace)) (step (cpu .trace none 0x80 0 [(0, 0x0900)])) =
      some (some (.isetError (.illegalOpcode 0x0900)), some 0x0900, some 1, []) := by
  decide

/-- V5.8: the operand word lies outside memory; the error comes in `parse`, so there is no event. -/
theorem test_operand_outside :
    after (fun t => (faultedWith t, [t.regs.br, t.regs.cr, t.regs.dr, t.regs.ar, t.regs.ip], t.trace))
        (step (cpu .trace none 0x80 2047 [(2047, 0x0100)])) =
      some (some (.addressOutOfRange 2048), [some 0x07FF, some 0x0100, some 0x0100, some 0x0800, some 0x0800], []) := by
  decide

/-- The first step after the placement of a word runs it. -/
theorem test_placed_word :
    after (fun t => (t.regs.ac, t.regs.ip)) (step (State.reset.withFetchWord 16 0x002A)) = some (some 0x2A, some 1) ∧
    after (fun t => t.phase) (step (State.reset.withFetchWord 16 0xFF00)) = some .halted ∧
    after (fun t => t.regs.ip) (step (State.reset.withFetchWord 32 0x00080500)) = some (some 8) := by
  decide

/-- Without a program the engine is idle. -/
theorem test_reset_is_idle :
    (match step State.reset with
      | .fault f => some f
      | _ => none) = some .engineIdle := by
  decide

/-! ## Witnesses: for each obligation with hypotheses, states and operands that meet them, clause by clause -/

theorem test_hyp_ResetLeavesEverythingUninitialized : (2047 : Nat) < 2048 ∧ plainRead config State.reset.mem 2047 = .ok none := by
  decide

theorem test_inv_cpu (kind : RunKind) (ac : Word) (p ip : Value) (mem : Memory) (hp : valueBit p 7 = true)
    (hm : mem.wf 2048 = true) : State.Inv config (cpu kind ac p ip mem) :=
  ⟨hm, hp, rfl, fun _ => rfl⟩

/-- At the last cell, and one step that aborts. -/
theorem test_hyp_EveryStepKeepsTheInvariant :
    (State.Inv config (cpu .trace none 0x80 2047 [(2047, 0xFF00)]) ∧
      ∃ t, step (cpu .trace none 0x80 2047 [(2047, 0xFF00)]) = .next t ∧
        engineStep config unitT0 (cpu .trace none 0x80 2047 [(2047, 0xFF00)]) = .next t) ∧
    (State.Inv config (cpu .run none 0x80 2048 []) ∧ ∃ t, step (cpu .run none 0x80 2048 []) = .next t) :=
  ⟨⟨test_inv_cpu _ _ _ _ _ rfl rfl, _, rfl, rfl⟩, test_inv_cpu _ _ _ _ _ rfl rfl, _, rfl⟩

theorem test_hyp_HostTransactionsKeepTheInvariant :
    State.Inv twoCells (hostConstruct unitT0).state ∧
    (∃ j, hostLoad twoCells [0x03, 0x0A, 0x11, 0x18] (hostConstruct unitT0) = .done () j) ∧
    (∃ j, hostLoadImage twoCells [0xFF] (hostConstruct unitT0) = .done () j) ∧
    (∃ j, hostPlainWrite twoCells 1 0x1234 (hostConstruct unitT0) = .done () j) ∧
    (∃ j, hostStart twoCells .run 65535 (hostConstruct unitT0) = .done () j) :=
  ⟨⟨rfl, rfl, rfl⟩, ⟨_, rfl⟩, ⟨_, rfl⟩, ⟨_, rfl⟩, _, rfl⟩

theorem test_hyp_EncodeOfDecodeAgreesOnEveryReadBit :
    decode [0x07F2, 0x1234] = .ok (.setf 2, [0x1234]) ∧ decode [0x01FF, 0xFFFF] = .ok (.lda 0xFFFF, []) := by
  decide

/-- The first and the last illegal opcode, at the last cell, and the legal ones beside them. -/
theorem test_hyp_IllegalOpcodeWordsAbortTheStep :
    ((cpu .run none 0x80 2047 [(2047, 0xFEFF)]).mem.read 2047 = some 0xFEFF ∧
      9 ≤ (opcodeOf 0xFEFF).toNat ∧ (opcodeOf 0xFEFF).toNat ≤ 0xFE) ∧
    ((cpu .run none 0x80 0 [(0, 0x0900)]).mem.read 0 = some 0x0900 ∧
      9 ≤ (opcodeOf 0x0900).toNat ∧ (opcodeOf 0x0900).toNat ≤ 0xFE) ∧
    (opcodeOf 0x08FF).toNat < 9 ∧ (opcodeOf 0xFF00).toNat = 0xFF := by
  decide

theorem test_hyp_AssembledStatementsDecode :
    Statement.instr? [("end", 0x000A)] (.jz (.label "end")) = some (.jz 0x000A) ∧
    Statement.instr? [] (.clrf (.name "RUN")) = some (.clrf 7) ∧ Statement.instr? [] (.ldi 255) = some (.ldi 255) := by
  decide

/-- One word at the last cell, two words in the last two cells. -/
theorem test_hyp_StepRunsTheDecodedInstruction :
    ((cpu .trace none 0x80 2047 [(2047, 0xFF00)]).phase = .running .trace ∧
      (cpu .trace none 0x80 2047 [(2047, 0xFF00)]).mem.read 2047 = some 0xFF00 ∧ decode [0xFF00] = .ok (.hlt, [])) ∧
    ((cpu .run none 0x80 2046 [(2046, 0x0500), (2047, 0x0800)]).mem.read 2046 = some 0x0500 ∧
      (cpu .run none 0x80 2046 [(2046, 0x0500), (2047, 0x0800)]).mem.read (2046 + 1) = some 0x0800 ∧
      decode [0x0500, 0x0800] = .ok (.jmp 0x0800, [])) := by
  decide

/-- IP never written; the last cell written, and not written; the first address outside. -/
theorem test_hyp_FetchWritesBrArDrCrIp :
    State.reset.regs.ip = none ∧
    ((cpu .run none 0x80 2047 [(2047, 0x0300)]).regs.ip = some 2047 ∧
      (cpu .run none 0x80 2047 [(2047, 0x0300)]).mem.read 2047 = some 0x0300) ∧
    (cpu .run none 0x80 2047 []).mem.read 2047 = none ∧
    ((cpu .run none 0x80 2048 []).regs.ip = some 2048 ∧ config.memSize ≤ (2048 : Value).toNat) := by
  decide

theorem test_hyp_OperandFetchKeepsBrAndCr :
    ((cpu .run none 0x80 1 [(1, 0xFFFF)]).regs.ip = some 1 ∧ (1 : Value).toNat < twoCells.memSize ∧
      (cpu .run none 0x80 1 [(1, 0xFFFF)]).mem.read 1 = some 0xFFFF) ∧
    (cpu .run none 0x80 1 []).mem.read 1 = none ∧
    ((cpu .run none 0x80 2 []).regs.ip = some 2 ∧ twoCells.memSize ≤ (2 : Value).toNat) := by
  decide

/-- A unit with one instruction of two words whose `parse` does not accept the operand 0. -/
def pickyUnit : InstructionUnit :=
  { Instruction := Value
    select := fun _ => .ok ⟨1, fun t => if t = 0 then .error (.foreign 1) else .ok t⟩
    execute := fun t => .writeReg .ac t (.done .continues) }

/-- A `parse` that raises by the opcode word, a two-word instruction in the last two cells, and a `parse` that raises after the
fetch of its opcode word and its operand. -/
theorem test_hyp_ParseOnlyFetchesOperands :
    (parse config unitT0.select 0x0900 State.reset).state = State.reset ∧
    (∃ t, fetchParse config unitT0.select (cpu .run none 0x80 2046 [(2046, 0x0500), (2047, 0x0800)]) =
      .ok (2046, 0x0500, .jmp 0x0800) t) ∧
    (∃ t, fetchParse config pickyUnit.select (cpu .run none 0x80 2046 [(2046, 7), (2047, 0)]) =
      .error (.isetError (.foreign 1)) t) ∧
    ∃ u, fetch config (cpu .run none 0x80 2046 [(2046, 7), (2047, 0)]) = .ok (2046, 7) u :=
  ⟨rfl, ⟨_, rfl⟩, ⟨_, rfl⟩, _, rfl⟩

/-- In the last two cells. -/
theorem test_hyp_ParseMayRaiseAfterAnOperandFetch :
    ((cpu .trace none 0x80 2046 [(2046, 7), (2047, 0)]).phase = .running .trace ∧
      (cpu .trace none 0x80 2046 [(2046, 7), (2047, 0)]).regs.ip = some 2046 ∧ (2046 : Value).toNat < config.memSize ∧
      (cpu .trace none 0x80 2046 [(2046, 7), (2047, 0)]).mem.read 2046 = some 7 ∧
      (advance config 2046).toNat < config.memSize ∧
      (cpu .trace none 0x80 2046 [(2046, 7), (2047, 0)]).mem.read (advance config 2046).toNat = some 0) ∧
    ∃ k, pickyUnit.select 7 = .ok ⟨1, k⟩ ∧ k 0 = .error (.foreign 1) :=
  ⟨by decide, _, rfl, rfl⟩

/-- The operand 0 aborts after it is fetched and leaves no event; any other operand runs (R142, R143, R146). -/
theorem test_parse_raises_after_operand :
    after (fun t => (faultedWith t, [t.regs.br, t.regs.cr, t.regs.ar, t.regs.dr, t.regs.ip], t.trace))
        (engineStep config pickyUnit (cpu .trace none 0x80 0 [(0, 7), (1, 0)])) =
      some (some (.isetError (.foreign 1)), [some 0, some 7, some 1, some 0, some 2], []) ∧
    after (fun t => (t.regs.ac, t.trace)) (engineStep config pickyUnit (cpu .trace none 0x80 0 [(0, 7), (1, 9)])) =
      some (some 9, [⟨0, 7⟩]) :=
  ⟨rfl, rfl⟩

theorem test_hyp_NoStepOutsideARun :
    State.reset.phase = .idle ∧ ((cpu .run none 0x80 1 []).halt config).phase = .halted ∧
    ((cpu .run none 0x80 1 []).abort (.addressOutOfRange 2048)).phase = .faulted (.addressOutOfRange 2048) :=
  ⟨rfl, rfl, rfl⟩

/-- A step that goes on, one that halts, one that aborts. -/
theorem test_hyp_PhaseMovesOnlyForward :
    (∃ t, engineStep config unitT0 (cpu .run none 0x80 0 [(0, 0x002A)]) = .next t) ∧
    (∃ t, engineStep config unitT0 (cpu .run none 0x80 0 [(0, 0xFF00)]) = .next t) ∧
    (∃ t, engineStep config unitT0 (cpu .run none 0x80 0 [(0, 0x0300)]) = .next t) :=
  ⟨⟨_, rfl⟩, ⟨_, rfl⟩, _, rfl⟩

/-- Not idle; the first start that is no Word value; the last that is one, and the first outside memory; PS written and not. -/
theorem test_hyp_StartSetsRunAndIp :
    (cpu .run none 0x80 0 []).phase ≠ .idle ∧ (State.reset.phase = .idle ∧ 65536 ≤ 65536 ∧ 65535 < 65536 ∧ 2048 ≤ 2048) ∧
    State.reset.regs.ps = none ∧
    ({ cpu .run none 0x0104 0 [] with phase := .idle } : State).regs.ps = some 0x0104 := by
  decide

/-- Both moduli, at the top of the Word and of memory. -/
theorem test_hyp_IpAdvanceWrapsAtTheModulus :
    (config.Valid ∧ config.ipModulus = .fullWord ∧ (0xFFFF#16).toNat = 65535) ∧
    (({ config with ipModulus := .memSize } : Config).Valid ∧ (0x07FF#16).toNat = config.memSize - 1) ∧
    ({ config with ipModulus := .memSize, memSize := 65536 } : Config).Valid := by
  decide

theorem test_hyp_HaltClearsRunAndEndsTheRun :
    ∃ u v, fetchParse config unitT0.select (cpu .trace none 0x8090 1 [(1, 0xFFAB)]) = .ok (1, 0xFFAB, .hlt) u ∧
      (unitT0.execute .hlt).run config (u.emit .trace 1 0xFFAB) = .ok .halt v :=
  ⟨_, _, rfl, rfl⟩

/-- `SETF 7` leaves `RUN` = 1, `CLRF 7` leaves it 0. -/
theorem test_hyp_ContinueWithRunClearedIsRefused :
    (∃ u v, fetchParse config unitT0.select (cpu .run none 0x80 0 [(0, 0x0707)]) = .ok (0, 0x0707, .setf 7) u ∧
      (unitT0.execute (.setf 7)).run config (u.emit .run 0 0x0707) = .ok .continues v ∧
      v.regs.ps = some 0x80 ∧ valueBit 0x80 7 = true) ∧
    (∃ u v, fetchParse config unitT0.select (cpu .run none 0x80 0 [(0, 0x0807)]) = .ok (0, 0x0807, .clrf 7) u ∧
      (unitT0.execute (.clrf 7)).run config (u.emit .run 0 0x0807) = .ok .continues v ∧
      v.regs.ps = some 0 ∧ valueBit 0 7 = false) :=
  ⟨⟨_, _, rfl, rfl, rfl, rfl⟩, _, _, rfl, rfl, rfl, rfl⟩

/-- An error in the fetch, in `parse`, in `execute`. -/
theorem test_hyp_ErrorsAbortWithoutRollback :
    (∃ u, fetchParse config unitT0.select (cpu .run none 0x80 2048 []) = .error (.addressOutOfRange 2048) u) ∧
    (∃ u, fetchParse config unitT0.select (cpu .run none 0x80 0 [(0, 0x0900)]) =
      .error (.isetError (.illegalOpcode 0x0900)) u) ∧
    (∃ u v, fetchParse config unitT0.select (cpu .run none 0x80 0 [(0, 0x0300)]) = .ok (0, 0x0300, .inc) u ∧
      (unitT0.execute .inc).run config (u.emit .run 0 0x0300) = .error (.uninitializedRead (.reg .ac)) v) :=
  ⟨⟨_, rfl⟩, ⟨_, rfl⟩, _, _, rfl, rfl⟩

theorem test_hyp_AbortLeavesStatusAndDataAlone :
    (cpu .run (some 0x2A) 0x80 1 [(1, 0x0200), (2, 0x0800)]).runFlag = true ∧
    ∃ t, step (cpu .run (some 0x2A) 0x80 1 [(1, 0x0200), (2, 0x0800)]) = .next t ∧
      t.phase = .faulted (.addressOutOfRange 2048) :=
  ⟨rfl, _, rfl, rfl⟩

/-- A store over the store's own operand word. -/
theorem test_hyp_OnlyStaWritesMemory :
    ∃ t, step (cpu .run (some 0xFF00) 0x80 0 [(0, 0x0200), (1, 0x0001)]) = .next t ∧
      t.mem.read 1 ≠ (cpu .run (some 0xFF00) 0x80 0 [(0, 0x0200), (1, 0x0001)]).mem.read 1 :=
  ⟨_, rfl, by decide⟩

theorem test_hyp_StackPointerAndInputAreNeverTouched :
    ∃ t, step ((cpu .run none 0x80 0 [(0, 0x002A)]).setReg .sp 0x07FF) = .next t :=
  ⟨_, rfl⟩

/-- A change by each of the four instructions that can make one. -/
theorem test_hyp_StatusBitsChangeOnlyByNamedInstructions :
    (∃ t q, step (cpu .run (some 0) 0x80 0 [(0, 0x0400)]) = .next t ∧ t.regs.ps = some q ∧ valueBit q 2 ≠ valueBit 0x80 2) ∧
    (∃ t q, step (cpu .run none 0x80 0 [(0, 0xFF00)]) = .next t ∧ t.regs.ps = some q ∧ valueBit q 7 ≠ valueBit 0x80 7) ∧
    (∃ t q, step (cpu .run none 0x80 0 [(0, 0x070F)]) = .next t ∧ t.regs.ps = some q ∧
      valueBit q 15 ≠ valueBit 0x80 15) ∧
    (∃ t q, step (cpu .run none 0x81 0 [(0, 0x0800)]) = .next t ∧ t.regs.ps = some q ∧ valueBit q 0 ≠ valueBit 0x81 0) :=
  ⟨⟨_, _, rfl, rfl, by decide⟩, ⟨_, _, rfl, rfl, by decide⟩, ⟨_, _, rfl, rfl, by decide⟩, _, _, rfl, rfl, by decide⟩

/-- `EI` and `INT` set and not set. -/
theorem test_hyp_OnlyZeroAndRunBitsAreEverRead :
    (2 : BitIndex) ∉ [(5 : BitIndex), 6] ∧ (7 : BitIndex) ∉ [(5 : BitIndex), 6] ∧
    SameButPsBits [5, 6] (cpu .run none 0x80 0 [(0, 0x002A)]) (cpu .run none 0xE0 0 [(0, 0x002A)]) :=
  ⟨by decide, by decide, fun r hr => by cases r <;> first | rfl | simp at hr,
    .inr ⟨0x80, 0xE0, rfl, rfl, by decide⟩, rfl, rfl, rfl⟩

theorem test_hyp_TracingObservesAndDoesNotAct :
    SameButStream (cpu .run none 0x80 0 [(0, 0x002A)])
      { cpu .trace none 0x80 0 [(0, 0x002A)] with trace := [⟨7, 0x0707⟩] } :=
  ⟨rfl, rfl, rfl⟩

/-- A `runAt` step, a traced step, a traced step whose `parse` raises. -/
theorem test_hyp_OneTraceEventPerExecutedInstruction :
    (∃ t, engineStep config unitT0 (cpu .run none 0x80 0 [(0, 0x002A)]) = .next t) ∧
    ((∃ t, engineStep config unitT0 (cpu .trace none 0x80 0 [(0, 0x0300)]) = .next t) ∧
      ∃ u, fetchParse config unitT0.select (cpu .trace none 0x80 0 [(0, 0x0300)]) = .ok (0, 0x0300, .inc) u) ∧
    ((∃ t, engineStep config unitT0 (cpu .trace none 0x80 0 [(0, 0x0900)]) = .next t) ∧
      ∃ u, fetchParse config unitT0.select (cpu .trace none 0x80 0 [(0, 0x0900)]) =
        .error (.isetError (.illegalOpcode 0x0900)) u) :=
  ⟨⟨_, rfl⟩, ⟨⟨_, rfl⟩, _, rfl⟩, ⟨_, rfl⟩, _, rfl⟩

theorem test_hyp_WrittenWordsStayWritten :
    (∃ t, engineStep config unitT0 (cpu .run (some 1) 0x80 0 [(0, 0x002A)]) = .next t) ∧
    ((cpu .run (some 1) 0x80 0 [(0, 0x002A)]).regs.get .ac).isSome = true ∧
    ((cpu .run (some 1) 0x80 0 [(0, 0x002A)]).mem.read 0).isSome = true :=
  ⟨⟨_, rfl⟩, rfl, rfl⟩

/-- A store into the cell at IP, and into the cell before it. -/
theorem test_hyp_FetchSeesTheLastStore :
    (∃ t, memWrite config 2047 0xFF00 (cpu .run none 0x80 2047 []) = .ok () t ∧ t.regs.ip = some 2047) ∧
    (∃ t, memWrite config 2046 0xFF00 (cpu .run none 0x80 2047 [(2047, 1)]) = .ok () t ∧ t.regs.ip = some 2047 ∧
      (cpu .run none 0x80 2047 [(2047, 1)]).mem.read 2047 = some 1) :=
  ⟨⟨_, rfl, rfl⟩, _, rfl, rfl, rfl⟩

theorem test_hyp_BusReadMirrorsIntoArAndDr :
    config.memSize ≤ (2048 : Value).toNat ∧ (2047 : Value).toNat < config.memSize ∧ State.reset.mem.read 2047 = none ∧
    (cpu .run none 0x80 0 [(2047, 0x00AA)]).mem.read 2047 = some 0x00AA := by
  decide

theorem test_hyp_BusWriteMirrorsIntoArAndDr :
    config.memSize ≤ (2048 : Value).toNat ∧ (2047 : Value).toNat < config.memSize := by
  decide

theorem test_hyp_PlainPortHasNoSideEffect :
    State.reset.phase = .idle ∧ 2047 < config.memSize ∧ config.memSize ≤ 2048 := by
  decide

theorem test_hyp_LoadThenDumpReturnsTheBytes :
    (List.replicate 4096 (0x5A : Byte)).length = 2 * config.memSize ∧
    ([0x03, 0x0A, 0x11, 0x18] : List Byte).length = 2 * twoCells.memSize :=
  ⟨List.length_replicate, rfl⟩

theorem test_hyp_LoadFillsCellsBigEndian :
    State.reset.phase = .idle ∧ ([0x03, 0x0A, 0x11] : List Byte).length ≠ 2 * twoCells.memSize ∧
    ([0x03, 0x0A, 0x11, 0x18] : List Byte).length = 2 * twoCells.memSize ∧ 1 < twoCells.memSize := by
  decide

/-- Cell 0 never written; only the last cell never written; every cell written. -/
theorem test_hyp_DumpFailsAtTheFirstUnwrittenCell :
    Memory.read [(1, 5)] 0 = none ∧
    (Memory.read [(0, 5)] 1 = none ∧ ∀ b, b < 1 → (Memory.read [(0, 5)] b).isSome = true) ∧
    ∀ a, a < twoCells.memSize → (Memory.read [(0, 5), (1, 6)] a).isSome = true := by
  decide

/-- An odd length, the longest length, and one byte more. -/
theorem test_hyp_LoadImagePadsWithZeros :
    State.reset.phase = .idle ∧ ([0xFF] : List Byte).length ≤ 2 * twoCells.memSize ∧
    ([1, 2, 3, 4] : List Byte).length ≤ 2 * twoCells.memSize ∧
    2 * twoCells.memSize < ([1, 2, 3, 4, 5] : List Byte).length := by
  decide

theorem test_hyp_HostHasNoMoveDuringARun :
    (∃ kind, (cpu .trace none 0x80 0 []).phase = .running kind) ∧
    ((cpu .run none 0x80 0 []).halt config).phase ≠ .idle :=
  ⟨⟨_, rfl⟩, by decide⟩

/-- A run that halts and a run that aborts. -/
theorem test_hyp_ReturnedRunsAreHalted :
    (State.Inv config (cpu .run none 0x80 0 [(0, 0xFF00)]) ∧
      ∃ t, drive (U := unitT0) config 1 ⟨cpu .run none 0x80 0 [(0, 0xFF00)]⟩ = .returned t) ∧
    (State.Inv config (cpu .run none 0x80 2048 []) ∧
      ∃ t, drive (U := unitT0) config 1 ⟨cpu .run none 0x80 2048 []⟩ = .failed (.addressOutOfRange 2048) t) :=
  ⟨⟨test_inv_cpu _ _ _ _ _ rfl rfl, _, rfl⟩, test_inv_cpu _ _ _ _ _ rfl rfl, _, rfl⟩

/-- The same, and an endless loop (V4.12) with no fuel and with one step of it. -/
theorem test_hyp_FuelDoesNotChangeTheEndOfARun :
    (∃ t, drive (U := unitT0) config 1 ⟨cpu .run none 0x80 0 [(0, 0xFF00)]⟩ = .returned t) ∧
    (∃ t, drive (U := unitT0) config 1 ⟨cpu .run none 0x80 2048 []⟩ = .failed (.addressOutOfRange 2048) t) ∧
    (State.Inv config (cpu .run none 0x80 0 [(0, 0x0500), (1, 0)]) ∧
      (∃ t, drive (U := unitT0) config 0 ⟨cpu .run none 0x80 0 [(0, 0x0500), (1, 0)]⟩ = .unfinished t) ∧
      ∃ t, drive (U := unitT0) config 1 ⟨cpu .run none 0x80 0 [(0, 0x0500), (1, 0)]⟩ = .unfinished t) :=
  ⟨⟨_, rfl⟩, ⟨_, rfl⟩, test_inv_cpu _ _ _ _ _ rfl rfl, ⟨_, rfl⟩, _, rfl⟩

/-- In the last two cells. -/
theorem test_hyp_JumpToItselfRunsForever :
    (cpu .run none 0x80 2046 [(2046, 0x05AB), (2047, 0x07FE)]).phase = .running .run ∧
    (cpu .run none 0x80 2046 [(2046, 0x05AB), (2047, 0x07FE)]).runFlag = true ∧
    (cpu .run none 0x80 2046 [(2046, 0x05AB), (2047, 0x07FE)]).regs.ip = some 2046 ∧ (2046 : Value).toNat + 1 < 2048 ∧
    (cpu .run none 0x80 2046 [(2046, 0x05AB), (2047, 0x07FE)]).mem.read 2046 = some 0x05AB ∧ opcodeOf 0x05AB = 0x05#8 ∧
    (cpu .run none 0x80 2046 [(2046, 0x05AB), (2047, 0x07FE)]).mem.read (2046 + 1) = some 2046 := by
  decide

/-- After a halt, and at reset; the last cell and the first address outside; a dump that ends well and one that fails. -/
theorem test_hyp_HostReadsGiveTheWordAndChangeNothing :
    (∀ kind, ((cpu .run none 0x80 1 [(0, 5), (1, 6)]).halt twoCells).phase ≠ .running kind) ∧
    ((cpu .run none 0x80 1 [(0, 5), (1, 6)]).halt twoCells).regs.ps = some 0 ∧
    (∀ kind, State.reset.phase ≠ .running kind) ∧ State.reset.regs.ps = none ∧ 1 < twoCells.memSize ∧ twoCells.memSize ≤ 2 ∧
    dumpMemory twoCells [(0, 5), (1, 6)] = .ok [0, 5, 0, 6] ∧
    dumpMemory twoCells [(1, 6)] = .error (.uninitializedRead (.cell 0)) :=
  ⟨fun _ h => (by cases h), rfl, fun _ h => (by cases h), rfl, by decide, by decide, rfl, rfl⟩

/-- The bounds of a bit index. -/
theorem test_hyp_BitAccessReadsAndWritesOneBit : (15 : Nat) < 16 ∧ 16 ≤ (16 : Nat) ∧ bitIndex? 15 = .ok 15 := by
  decide

theorem test_hyp_RegisterReadsGiveTheLastWrite :
    State.reset.regs.get .input = none ∧ (cpu .run (some 0x2A) 0x80 0 []).regs.get .ac = some 0x2A := by
  decide

theorem test_hyp_RecalcSetsZeroAndSignOnly :
    (cpu .run none 0x80 0 []).regs.ac = none ∧ (cpu .run (some 0x8000) 0x88 0 []).regs.ac = some 0x8000 := by
  decide

/-- In a run `RUN` is 1; the opcode byte of the word is LDI's. -/
theorem test_hyp_LdiWritesTheZeroExtendedImmediate :
    (cpu .run none 0x80 0 []).runFlag = true ∧ opcodeOf 0x00FF = 0x00#8 := by
  decide

/-- The last cell written; the first address outside; the last cell never written. -/
theorem test_hyp_LdaLoadsThroughTheBus :
    opcodeOf 0x01FF = 0x01#8 ∧
    ((cpu .run none 0x80 0 [(2047, 0xAA)]).runFlag = true ∧ (2047 : Value).toNat < 2048 ∧
      (cpu .run none 0x80 0 [(2047, 0xAA)]).mem.read 2047 = some 0xAA) ∧
    2048 ≤ (2048 : Value).toNat ∧ (cpu .run none 0x80 0 []).mem.read 2047 = none := by
  decide

/-- AC written, the last cell and the first address outside; AC never written. -/
theorem test_hyp_StaStoresThroughTheBus :
    opcodeOf 0x02FF = 0x02#8 ∧
    ((cpu .run (some 7) 0x80 0 []).runFlag = true ∧ (cpu .run (some 7) 0x80 0 []).regs.ac = some 7 ∧
      (2047 : Value).toNat < 2048 ∧ 2048 ≤ (2048 : Value).toNat) ∧
    (cpu .run none 0x80 0 []).regs.ac = none := by
  decide

theorem test_hyp_IncAddsOneWithoutFlags :
    opcodeOf 0x03AB = 0x03#8 ∧
    ((cpu .run (some 0xFFFF) 0x80 0 []).runFlag = true ∧ (cpu .run (some 0xFFFF) 0x80 0 []).regs.ac = some 0xFFFF) ∧
    (cpu .run none 0x80 0 []).regs.ac = none := by
  decide

theorem test_hyp_TstRecomputesZeroAndSign :
    opcodeOf 0x0400 = 0x04#8 ∧
    ((cpu .run (some 0x80) 0x84 0 []).runFlag = true ∧ (cpu .run (some 0x80) 0x84 0 []).regs.ac = some 0x80) ∧
    (cpu .run none 0x80 0 []).regs.ac = none := by
  decide

/-- Any target; in a run, the first target outside memory. -/
theorem test_hyp_JmpWritesIpOnly :
    opcodeOf 0x0500 = 0x05#8 ∧ (cpu .trace none 0x80 0 []).runFlag = true ∧
    (cpu .trace none 0x80 0 []).phase = .running .trace ∧ 2048 ≤ (2048 : Value).toNat := by
  decide

/-- With `Z` set and with `Z` clear. -/
theorem test_hyp_JzJumpsExactlyOnTheZeroFlag :
    opcodeOf 0x0600 = 0x06#8 ∧
    ((cpu .run none 0x84 0 []).regs.ps = some 0x84 ∧ valueBit 0x84 7 = true ∧ valueBit 0x84 2 = true) ∧
    ((cpu .run none 0x88 0 []).regs.ps = some 0x88 ∧ valueBit 0x88 7 = true ∧ valueBit 0x88 2 = false) := by
  decide

theorem test_hyp_SetfSetsOneBit : opcodeOf 0x070F = 0x07#8 ∧ (cpu .run none 0x80 0 []).runFlag = true := by
  decide

/-- The first and the last bit that may be cleared. -/
theorem test_hyp_ClrfClearsOneBitAndRunIsRefused :
    opcodeOf 0x0807 = 0x08#8 ∧ (cpu .run none 0x8081 0 []).runFlag = true ∧ (0 : BitIndex) ≠ 7 ∧ (15 : BitIndex) ≠ 7 := by
  decide

theorem test_hyp_HltEndsTheRun : opcodeOf 0xFFAB = 0xFF#8 := by
  decide

end Sys2Proof.Tests
end

/-! PROOFS. Everything a step of the engine can do, for any instruction unit, and what every step therefore keeps. -/

namespace Sys2Proof.Machine

section

variable {c : Config} {U : InstructionUnit} {s t u : State} {kind : RunKind} {P : State → Prop} {a w : Value} {ι : Type}

/-! ### Everything a step can do -/

/-- A sequence succeeds if its first part does and the rest does from there. -/
theorem Result.bind_eq_ok {α β : Type} {x : Result α} {f : α → State → Result β} {b : β} :
    x.bind f = .ok b t ↔ ∃ y u, x = .ok y u ∧ f y u = .ok b t := by
  cases x <;> simp

/-- A sequence fails if its first part does, or the rest does from where the first part succeeded (R204). -/
theorem Result.bind_eq_error {α β : Type} {x : Result α} {f : α → State → Result β} {e : Error} :
    x.bind f = .error e t ↔ x = .error e t ∨ ∃ y u, x = .ok y u ∧ f y u = .error e t := by
  cases x <;> simp

/-- Where the rest of a sequence cannot fail, its first part did. -/
theorem Result.bind_error_head {α β : Type} {x : Result α} {f : α → State → Result β} {e : Error}
    (hf : ∀ y u e t, f y u ≠ .error e t) (h : x.bind f = .error e t) : x = .error e t := by
  obtain h | ⟨y, u, -, h⟩ := Result.bind_eq_error.mp h
  · exact h
  · exact absurd h (hf y u e t)

/-- Fetch and decode that succeed: the fetch at IP, then `parse` of the word it read. -/
theorem fetchParse_eq_ok {select : Value → Except IsetError (Selection ι)} {i : ι}
    (h : fetchParse c select s = .ok (a, w, i) u) :
    fetch c s = .ok (a, w) (fetched c s a w) ∧ parse c select w (fetched c s a w) = .ok i u := by
  simp only [fetchParse, Result.bind_eq_ok] at h
  obtain ⟨⟨a', w'⟩, s1, hf, j, s2, hp, h⟩ := h
  obtain ⟨-, -, -, rfl⟩ := fetch_eq_ok hf
  cases h
  exact ⟨hf, hp⟩

/-- Fetch and decode that fail: in the fetch, or in `parse` of the word the fetch read. -/
theorem fetchParse_eq_error {select : Value → Except IsetError (Selection ι)} {e : Error}
    (h : fetchParse c select s = .error e u) :
    fetch c s = .error e u ∨
      ∃ a w, fetch c s = .ok (a, w) (fetched c s a w) ∧ parse c select w (fetched c s a w) = .error e u := by
  simp only [fetchParse, Result.bind_eq_error] at h
  obtain hf | ⟨⟨a, w⟩, s1, hf, hp | ⟨j, s2, -, h⟩⟩ := h
  · exact .inl hf
  · obtain ⟨-, -, -, rfl⟩ := fetch_eq_ok hf
    exact .inr ⟨a, w, hf, hp⟩
  · cases h

/-- `u` comes from `s` by what `parse` and `execute` can do in a run of kind `kind` (R140 to R142, R146): register writes,
writes inside memory, and the trace event. -/
inductive Acts (c : Config) (kind : RunKind) (s : State) : State → Prop
  | refl : Acts c kind s s
  | setReg {u : State} (r : Reg) (v : Value) : Acts c kind s u → Acts c kind s (u.setReg r v)
  | write {u : State} (a : Nat) (v : Value) :
      a < c.memSize → Acts c kind s u → Acts c kind s { u with mem := u.mem.write a v }
  | emit {u : State} (a w : Value) : Acts c kind s u → Acts c kind s (u.emit kind a w)

theorem Acts.stable : Stable c (Acts c kind s) := ⟨fun _ r v h => h.setReg r v, fun _ a v ha h => h.write a v ha⟩

/-- What each act keeps, all of them keep. -/
theorem Acts.keeps (h : Acts c kind s u) (hP : Stable c P) (hemit : ∀ u a w, P u → P (u.emit kind a w)) (hs : P s) :
    P u := by
  induction h with
  | refl => exact hs
  | setReg r v _ ih => exact hP.setReg _ r v ih
  | write a v ha _ ih => exact hP.write _ a v ha ih
  | emit a w _ ih => exact hemit _ a w ih

theorem Acts.phase_eq (h : Acts c kind s u) : u.phase = s.phase :=
  h.keeps (stable_phase c s.phase) (fun _ _ _ hu => by simpa using hu) rfl

theorem Acts.isSome {r : Reg} (hr : (s.regs.get r).isSome = true) (h : Acts c kind s u) :
    (u.regs.get r).isSome = true :=
  h.keeps (stable_isSome c r) (fun _ _ _ hu => by simpa using hu) hr

/-- A `runAt` run emits nothing (R146). -/
theorem Acts.trace_run (h : Acts c .run s u) : u.trace = s.trace :=
  h.keeps (stable_trace c s.trace) (fun _ _ _ hu => hu) rfl

theorem parse_acts {select : Value → Except IsetError (Selection ι)} {x : Result ι} (h : parse c select w s = x) :
    Acts c kind s x.state :=
  h ▸ parse_stable Acts.stable .refl

/-- The three ends of a step from the state `u` that its instruction left: the run goes on, halts or aborts (R132). -/
inductive Ended (c : Config) (u : State) : State → Prop
  | continued : u.runFlag = true → Ended c u u
  | halted : Ended c u (u.halt c)
  | aborted (e : Error) : Ended c u (u.abort e)

theorem complete_next {x : Result Signal} (h : complete c x = .next t) : Ended c x.state t := by
  obtain ⟨u, rfl, hx⟩ | ⟨u, rfl, hrun, hx⟩ | ⟨u, p, rfl, -, -, hx⟩ | ⟨u, rfl, -, hx⟩ | ⟨e, u, rfl, hx⟩ :=
    complete_cases c x <;> rw [hx] at h <;> cases h
  · exact .halted
  · exact .continued hrun
  · exact .aborted _
  · exact .aborted e

/-- A step is taken in a run (R132): its fetch fails and aborts, or the fetch succeeds and `parse` and `execute` act on the
state it leaves until one of the three ends. -/
theorem engineStep_cases (h : engineStep c U s = .next t) : ∃ kind, s.phase = .running kind ∧
    ((∃ e u, fetch c s = .error e u ∧ t = u.abort e) ∨
     ∃ a w u, fetch c s = .ok (a, w) (fetched c s a w) ∧ Acts c kind (fetched c s a w) u ∧ Ended c u t) := by
  obtain ⟨kind, hkind, ⟨a, w, i, u, hfp, hx⟩ | ⟨e, u, hfp, rfl⟩⟩ := stepBy_next h <;> refine ⟨kind, hkind, ?_⟩
  · obtain ⟨hf, hp⟩ := fetchParse_eq_ok hfp
    have hu : Acts c kind (fetched c s a w) u := parse_acts hp
    exact .inr ⟨a, w, _, hf, Routine.run_stable Acts.stable _ _ (hu.emit a w), complete_next hx⟩
  · obtain hf | ⟨a, w, hf, hp⟩ := fetchParse_eq_error hfp
    · exact .inl ⟨e, u, hf, rfl⟩
    · have hu : Acts c kind (fetched c s a w) u := parse_acts hp
      exact .inr ⟨a, w, u, hf, hu, .aborted e⟩

/-- What every register write and every memory write inside memory keeps of the registers and memory, every step keeps. -/
theorem engineStep_keeps {Q : RegFile → Memory → Prop} (hQ : Stable c fun s => Q s.regs s.mem)
    (hs : Q s.regs s.mem) (h : engineStep c U s = .next t) : Q t.regs t.mem := by
  obtain ⟨kind, -, ⟨e, u, hf, rfl⟩ | ⟨a, w, u, hf, hacts, hend⟩⟩ := engineStep_cases h
  · simpa [hf] using fetch_stable hQ hs
  · have hfetched : Q (fetched c s a w).regs (fetched c s a w).mem := by simpa [hf] using fetch_stable hQ hs
    have hu : Q u.regs u.mem := hacts.keeps hQ (fun _ _ _ hv => by simpa using hv) hfetched
    cases hend with
    | continued _ => exact hu
    | halted => exact hQ.setReg u .ps _ hu
    | aborted e => exact hu

end

end Sys2Proof.Machine

/-! PROOFS. The invariant, the phases and the written Words along a step of any instruction unit; reset; the advance of IP. -/

namespace Sys2Proof.Machine

section

variable {c : Config} {U : InstructionUnit} {s t u : State} {a w : Value}

/-! ### The invariant -/

/-- The fetch initialises the registers it writes (R133), and keeps every initialised one (R13). -/
theorem fetched_isSome {r : Reg} (h : r ∈ [Reg.br, .ar, .dr, .cr, .ip] ∨ (s.regs.get r).isSome = true) :
    ((fetched c s a w).regs.get r).isSome = true := by
  cases r <;> simp_all [fetched, RegFile.get_set]

/-- In a run PS holds a value: `RUN` is one of its bits (R20). -/
theorem ps_isSome_of_runFlag (h : s.runFlag = true) : (s.regs.get .ps).isSome = true := by
  obtain ⟨p, hp, -⟩ := (runFlag_true_iff s).mp h
  simp [RegFile.get_ps, hp]

theorem halt_runFlag : (s.halt c).runFlag = false := by
  have hps : (s.halt c).regs.ps = some (setBit c s.regs.ps 7 false) := rfl
  simp [runFlag_eq hps, valueBit_setBit]

/-- A fetch that fails where IP holds a value has written BR and AR (R133, R212). -/
theorem fetch_error_initialised {e : Error} {r : Reg} (hip : s.regs.ip.isSome = true) (h : fetch c s = .error e u)
    (hr : r = .br ∨ r = .ar ∨ (s.regs.get r).isSome = true) : (u.regs.get r).isSome = true := by
  obtain ⟨hnone, -⟩ | ⟨a, -, rfl⟩ := fetch_eq_error h
  · simp [hnone] at hip
  · cases r <;> simp_all [RegFile.get_set]

/-- From a running state that meets it, the engine keeps the invariant, whatever the instruction unit. -/
theorem engineStep_keeps_inv (hinv : State.Inv c s) (h : engineStep c U s = .next t) : State.Inv c t := by
  obtain ⟨hwf, hphase⟩ := hinv
  refine ⟨engineStep_keeps (Q := fun _ m => m.wf c.memSize = true) (stable_wf c) hwf h, ?_⟩
  obtain ⟨kind, hkind, hcases⟩ := engineStep_cases h
  simp only [hkind] at hphase
  obtain ⟨hrun, hip, htrace⟩ := hphase
  have hps := ps_isSome_of_runFlag hrun
  obtain ⟨e, u, hf, rfl⟩ | ⟨a, w, u, -, hacts, hend⟩ := hcases
  · have hinit := fun r => fetch_error_initialised (r := r) hip hf
    exact ⟨hinit .ps (by simp [hps]), hinit .ip (.inr (.inr hip)), hinit .br (by simp), hinit .ar (by simp)⟩
  · have hinit : ∀ r ∈ [Reg.ps, .ip, .br, .ar, .dr, .cr], (u.regs.get r).isSome = true := fun r hr =>
      hacts.isSome (fetched_isSome (by cases r <;> simp_all))
    cases hend with
    | continued hrun' =>
      simp only [hacts.phase_eq.trans hkind]
      refine ⟨hrun', hinit .ip (by simp), ?_⟩
      rintro rfl
      exact hacts.trace_run.trans (htrace rfl)
    | halted =>
      exact ⟨rfl, halt_runFlag, hinit .ip (by simp), hinit .br (by simp), hinit .ar (by simp), hinit .dr (by simp),
        hinit .cr (by simp)⟩
    | aborted e => exact ⟨hinit .ps (by simp), hinit .ip (by simp), hinit .br (by simp), hinit .ar (by simp)⟩

end

/-- Settles O3: T0's step is the engine bound to T0. -/
theorem everyStepKeepsTheInvariant : Obligations.EveryStepKeepsTheInvariant :=
  ⟨fun _ _ hs h => engineStep_keeps_inv hs (step_eq_engineStep ▸ h), fun _ _ _ _ hs h => engineStep_keeps_inv hs h⟩

/-- Settles O16: no act of an instruction writes the phase, and each end of a step sets it or leaves it. -/
theorem phaseMovesOnlyForward : Obligations.PhaseMovesOnlyForward := by
  intro c U s t h
  obtain ⟨kind, hkind, ⟨e, u, -, rfl⟩ | ⟨a, w, u, -, hacts, hend⟩⟩ := engineStep_cases h <;> refine ⟨kind, hkind, ?_⟩
  · exact .inr (.inr ⟨e, rfl⟩)
  · cases hend with
    | continued _ => exact .inl (hacts.phase_eq.trans hkind)
    | halted => exact .inr (.inl rfl)
    | aborted e => exact .inr (.inr ⟨e, rfl⟩)

/-- A written cell stays written (R90). -/
theorem stable_read_isSome (c : Config) (a : Nat) : Stable c fun s => (s.mem.read a).isSome = true where
  setReg _ _ _ h := h
  write s b v _ h := by
    simp only [Memory.read_write]
    split
    · rfl
    · exact h

/-- Settles O29: a register write and a memory write leave a value behind, and a step is made of such writes. -/
theorem writtenWordsStayWritten : Obligations.WrittenWordsStayWritten := fun c _ _ _ h =>
  ⟨fun r hr => engineStep_keeps (Q := fun f _ => (f.get r).isSome = true) (stable_isSome c r) hr h,
    fun a ha => engineStep_keeps (Q := fun _ m => (m.read a).isSome = true) (stable_read_isSome c a) ha h⟩

/-! ### Reset, and the advance of IP -/

/-- Settles O2: in `idle` the invariant asks for the reset registers and the empty stream. -/
theorem resetMeetsTheInvariant : Obligations.ResetMeetsTheInvariant := fun c => ⟨reset_mem_wf c.memSize, rfl, rfl⟩

/-- Settles O1: a read of a never-written flag fails by R98. -/
theorem resetLeavesEverythingUninitialized : Obligations.ResetLeavesEverythingUninitialized := by
  refine ⟨fun _ => RegFile.get_reset _, fun a ha => ?_, fun U f => ?_, rfl, rfl, fun _ => rfl⟩
  · exact if_pos ha
  · exact congrArg (hostConstruct U).hostRead (getBit_none config (.reg .ps) f.bit)

/-- Settles O15, by the phases `step` tells apart. -/
theorem noStepOutsideARun : Obligations.NoStepOutsideARun := by
  intro s
  refine ⟨fun h => ?_, fun h => ?_, fun e h => ?_⟩ <;> simp [step, stepBy, h]

/-- The advance of IP as a number (R15). -/
theorem advance_toNat (c : Config) (a : Value) (hc : c.Valid) :
    (advance c a).toNat = (a.toNat + 1) % ipModulus c := by
  obtain ⟨hpos, hle⟩ := hc
  have hm : 0 < ipModulus c ∧ ipModulus c ≤ 65536 := by unfold ipModulus; split <;> omega
  have hlt := Nat.mod_lt (a.toNat + 1) hm.1
  exact Nat.mod_eq_of_lt (by omega)

/-- Settles O18: the remainder is the new IP under both moduli, since a Word holds every number below them. -/
theorem ipAdvanceWrapsAtTheModulus : Obligations.IpAdvanceWrapsAtTheModulus := by
  intro c a hc
  have hadv := advance_toNat c a hc
  refine ⟨fun hm => ?_, fun hm => ?_⟩ <;> simp only [ipModulus, hm] at hadv
  · have heq : advance c a = incrementValue a := BitVec.eq_of_toNat_eq (by rw [hadv, incrementValue_toNat])
    exact ⟨heq, fun ha => by rw [heq, ha]; rfl⟩
  · refine ⟨hadv, hadv ▸ Nat.mod_lt _ hc.1, fun ha => BitVec.eq_of_toNat_eq ?_⟩
    rw [hadv, ha, Nat.sub_add_cancel hc.1, Nat.mod_self]
    rfl

end Sys2Proof.Machine

/-! PROOFS. What a T0 step leaves alone, and which T0 instruction changes which bit of PS. -/

namespace Sys2Proof.Machine

section

variable {c : Config} {s t u : State} {rs rs' : List Reg} {a w : Value} {ι : Type}

/-! ### Frames: the registers and cells an operation leaves alone -/

theorem SameRegsExcept.refl : SameRegsExcept rs s s := fun _ _ => rfl

theorem SameRegsExcept.mono (h : SameRegsExcept rs s t) (hrs : rs ⊆ rs') : SameRegsExcept rs' s t :=
  fun r hr => h r fun hmem => hr (hrs hmem)

theorem SameRegsExcept.trans (h : SameRegsExcept rs s t) (h' : SameRegsExcept rs t u) : SameRegsExcept rs s u :=
  fun r hr => (h' r hr).trans (h r hr)

theorem SameRegsExcept.setReg {r : Reg} {v : Value} (h : SameRegsExcept rs s t) (hr : r ∈ rs) :
    SameRegsExcept rs s (t.setReg r v) :=
  fun q hq => (RegFile.get_set_other _ _ _ _ (ne_of_mem_of_not_mem hr hq).symm).trans (h q hq)

theorem SameRegsExcept.memRead (h : SameRegsExcept rs s t) (har : .ar ∈ rs) (hdr : .dr ∈ rs) :
    SameRegsExcept rs s (memRead c a t).state := by
  rcases memRead_cases c a t with ⟨v, -, -, e⟩ | ⟨_, e⟩ <;> rw [e]
  · exact (h.setReg har).setReg hdr
  · exact h.setReg har

theorem SameRegsExcept.memWrite {v : Value} (h : SameRegsExcept rs s t) (har : .ar ∈ rs) (hdr : .dr ∈ rs) :
    SameRegsExcept rs s (memWrite c a v t).state := by
  have h' : SameRegsExcept rs s ((t.setReg .ar a).setReg .dr v) := (h.setReg har).setReg hdr
  rcases Nat.lt_or_ge a.toNat c.memSize with ha | ha
  · rw [memWrite_ok ha]
    exact h'
  · rw [memWrite_range ha]
    exact h'

theorem SameRegsExcept.recalc (h : SameRegsExcept rs s t) (hps : .ps ∈ rs) :
    SameRegsExcept rs s (recalcFromAccumulator c t).state := by
  cases hac : t.regs.ac with
  | none => rwa [recalc_none hac]
  | some a =>
    rw [recalc_ok hac]
    exact (h.setReg hps).setReg hps

/-- `parse` writes AR, DR and IP at most, and no cell (R140 (b), R143). -/
theorem parse_frame {select : Value → Except IsetError (Selection ι)} {x : Result ι} (h : parse c select w s = x) :
    SameRegsExcept [.ar, .dr, .ip] s x.state ∧ x.state.mem = s.mem := by
  subst h
  unfold parse
  split
  · exact ⟨.refl, rfl⟩
  · exact fetchOperands_frame ..

theorem fetched_frame : SameRegsExcept [.br, .ar, .dr, .cr, .ip] s (fetched c s a w) := by
  simp +contextual [SameRegsExcept, fetched, RegFile.get_set]

/-- Fetch and `parse` write BR, AR, DR, CR and IP at most, and no cell (R133, R140 (b), R143). -/
theorem fetchParse_frame {select : Value → Except IsetError (Selection ι)} {x : Result (Value × Value × ι)}
    (h : fetchParse c select s = x) : SameRegsExcept [.br, .ar, .dr, .cr, .ip] s x.state ∧ x.state.mem = s.mem := by
  cases x with
  | ok p u =>
    obtain ⟨a, w, i⟩ := p
    obtain ⟨hregs, hmem⟩ := parse_frame (fetchParse_eq_ok h).2
    exact ⟨fetched_frame.trans (hregs.mono (by simp)), hmem⟩
  | error e u =>
    obtain hf | ⟨a, w, -, hp⟩ := fetchParse_eq_error h
    · obtain ⟨-, rfl⟩ | ⟨a, -, rfl⟩ := fetch_eq_error hf
      · exact ⟨.refl, rfl⟩
      · exact ⟨(SameRegsExcept.refl.setReg (by simp)).setReg (by simp), rfl⟩
    · obtain ⟨hregs, hmem⟩ := parse_frame hp
      exact ⟨fetched_frame.trans (hregs.mono (by simp)), hmem⟩

/-- The registers and cells of the state in which a fetched T0 instruction runs, but for the engine's own (R133, R146). -/
theorem fetchParse_emit_frame {select : Value → Except IsetError (Selection ι)} {kind : RunKind} {i : ι}
    (h : fetchParse c select s = .ok (a, w, i) u) :
    SameRegsExcept [.br, .ar, .dr, .cr, .ip] s (u.emit kind a w) ∧ (u.emit kind a w).mem = s.mem := by
  obtain ⟨hregs, hmem⟩ := fetchParse_frame h
  exact ⟨fun r hr => by simpa using hregs r hr, by simpa using hmem⟩

/-- A routine that writes no register outside `rs`. The bus port writes AR and DR (R44, R45), the flag computation PS (R115),
and so does the engine where the routine signals halt (R136). -/
def Routine.WritesOnly (rs : List Reg) : Routine → Prop
  | .done sig => sig = .halt → .ps ∈ rs
  | .raise _ => True
  | .readReg _ next => ∀ v, (next v).WritesOnly rs
  | .writeReg r _ next => r ∈ rs ∧ next.WritesOnly rs
  | .readBit _ _ next => ∀ b, (next b).WritesOnly rs
  | .writeBit r _ _ next => r ∈ rs ∧ next.WritesOnly rs
  | .recalc next => .ps ∈ rs ∧ next.WritesOnly rs
  | .busRead _ next => (.ar ∈ rs ∧ .dr ∈ rs) ∧ ∀ v, (next v).WritesOnly rs
  | .busWrite _ _ next => (.ar ∈ rs ∧ .dr ∈ rs) ∧ next.WritesOnly rs

/-- After `Continue` the run goes on, or, where PS was never written, the test of `RUN` aborts it (R137). -/
theorem complete_continues_next (h : complete c (.ok .continues u) = .next t) :
    t = u ∨ (u.regs.ps = none ∧ t = u.abort (.uninitializedRead (.reg .ps))) := by
  obtain ⟨v, hv, -⟩ | ⟨v, hv, -, hx⟩ | ⟨v, p, hv, -, -, hx⟩ | ⟨v, hv, hps, hx⟩ | ⟨e, v, hv, -⟩ :=
    complete_cases c (.ok .continues u) <;> cases hv <;> rw [hx] at h <;> cases h
  · exact .inl rfl
  · exact .inr ⟨hps, rfl⟩

theorem complete_continues_regs (h : complete c (.ok .continues u) = .next t) : t.regs = u.regs := by
  obtain rfl | ⟨-, rfl⟩ := complete_continues_next h <;> rfl

/-- The frame of a sequence whose result the engine completes: an error of its first part aborts there (R138). -/
theorem complete_bind_frame {α : Type} {x : Result α} {f : α → State → Result Signal}
    (hx : SameRegsExcept rs s x.state)
    (hf : ∀ y u, SameRegsExcept rs s u → complete c (f y u) = .next t → SameRegsExcept rs s t)
    (h : complete c (x.bind f) = .next t) : SameRegsExcept rs s t := by
  cases x with
  | ok y u => exact hf y u hx h
  | error e u => cases h; exact hx

/-- An instruction changes the registers its routine may write and no other, however it ends. -/
theorem complete_run_frame (p : Routine) : ∀ u, p.WritesOnly rs → SameRegsExcept rs s u →
    complete c (p.run c u) = .next t → SameRegsExcept rs s t := by
  induction p with
  | done sig =>
    intro u hp hu h
    cases sig with
    | halt => cases h; exact hu.setReg (hp rfl)
    | continues => obtain rfl | ⟨-, rfl⟩ := complete_continues_next h <;> exact hu
  | raise e => intro u hp hu h; cases h; exact hu
  | readReg r next ih =>
    intro u hp hu h
    exact complete_bind_frame (by simpa using hu) (fun v u' => ih v u' (hp v)) h
  | writeReg r v next ih => rintro u ⟨hr, hp⟩ hu h; exact ih _ hp (hu.setReg hr) h
  | readBit r i next ih =>
    intro u hp hu h
    exact complete_bind_frame (by simpa using hu) (fun b u' => ih b u' (hp b)) h
  | writeBit r i b next ih => rintro u ⟨hr, hp⟩ hu h; exact ih _ hp (hu.setReg hr) h
  | recalc next ih =>
    rintro u ⟨hps, hp⟩ hu h
    exact complete_bind_frame (hu.recalc hps) (fun _ u' => ih u' hp) h
  | busRead a next ih =>
    rintro u ⟨⟨har, hdr⟩, hp⟩ hu h
    exact complete_bind_frame (hu.memRead har hdr) (fun v u' => ih v u' (hp v)) h
  | busWrite a v next ih =>
    rintro u ⟨⟨har, hdr⟩, hp⟩ hu h
    exact complete_bind_frame (hu.memWrite har hdr) (fun _ u' => ih u' hp) h

/-! ### The frame of a T0 step -/

/-- A T0 step ran the instruction that `parse` gave, or aborted before it (R132). -/
theorem step_cases (h : step s = .next t) : ∃ kind, s.phase = .running kind ∧
    ((∃ a w i u, fetchParse config select s = .ok (a, w, i) u ∧
        complete config ((t0Execute i).run config (u.emit kind a w)) = .next t) ∨
     ∃ e u, fetchParse config select s = .error e u ∧ t = u.abort e) := by
  simpa only [exec_eq_complete] using stepBy_next h

/-- T0's instructions that write PS: `TST` by the flag computation, `SETF` and `CLRF` by their bit, `HLT` by the halt. -/
def writesStatus : Instr → Bool
  | .tst | .setf _ | .clrf _ | .hlt => true
  | .ldi _ | .lda _ | .sta _ | .inc | .jmp _ | .jz _ => false

/-- T0's routines write AC, DR, IP and AR, and the four that write PS that too. -/
theorem t0Execute_writesOnly (i : Instr) (hrs : [.ac, .dr, .ip, .ar] ⊆ rs) (hps : writesStatus i = true → .ps ∈ rs) :
    (t0Execute i).WritesOnly rs := by
  simp only [List.cons_subset, List.nil_subset, and_true] at hrs
  obtain ⟨hac, hdr, hip, har⟩ := hrs
  cases i with
  | ldi => exact ⟨hac, nofun⟩
  | lda => exact ⟨⟨har, hdr⟩, fun _ => ⟨hac, nofun⟩⟩
  | sta => exact fun _ => ⟨⟨har, hdr⟩, nofun⟩
  | inc => exact fun _ => ⟨hac, nofun⟩
  | jmp => exact ⟨hip, nofun⟩
  | jz => exact fun z => by cases z; exacts [nofun, ⟨hip, nofun⟩]
  | tst | setf | clrf => exact ⟨hps rfl, nofun⟩
  | hlt => exact fun _ => hps rfl

/-- No step of T0 writes SP or IN. -/
theorem step_frame (h : step s = .next t) : SameRegsExcept [.br, .ar, .dr, .cr, .ip, .ac, .ps] s t := by
  obtain ⟨kind, -, ⟨a, w, i, u, hfp, hx⟩ | ⟨e, u, hfp, rfl⟩⟩ := step_cases h
  · exact complete_run_frame _ _ (t0Execute_writesOnly i (by simp) (by simp))
      ((fetchParse_emit_frame hfp).1.mono (by simp)) hx
  · exact (fetchParse_frame hfp).1.mono (by simp)

/-! ### What T0 does to the bits of PS -/

/-- A bit write to PS changes that bit only (R96, R114). -/
theorem setRegBit_ps_changed {p q : Value} {j k : BitIndex} {b : Bool} (hp : s.regs.ps = some p)
    (hq : (s.setRegBit c .ps j b).regs.ps = some q) (hne : valueBit q k ≠ valueBit p k) : k = j ∧ valueBit q k = b := by
  have hq' : some (setBit c s.regs.ps j b) = some q := hq
  simp only [hp, setBit_some, Option.some.injEq] at hq'
  subst hq'
  by_cases hk : k = j
  · exact ⟨hk, by simp [valueBit_setValueBit, hk]⟩
  · simp [valueBit_setValueBit, hk] at hne

theorem recalc_ps_changed {p q : Value} {k : BitIndex} (hp : s.regs.ps = some p)
    (hq : (recalcFromAccumulator c s).state.regs.ps = some q) (hne : valueBit q k ≠ valueBit p k) : k = 2 ∨ k = 3 := by
  cases hac : s.regs.ac with
  | none => simp_all [recalc_none hac]
  | some a =>
    rw [recalc_ok hac] at hq
    have hz : (s.setFlag c .zero (valueIsZero a)).regs.ps = some (setBit c s.regs.ps 2 (valueIsZero a)) := rfl
    by_cases hk : valueBit (setBit c s.regs.ps 2 (valueIsZero a)) k = valueBit p k
    · exact .inr (setRegBit_ps_changed hz hq (hk ▸ hne)).1
    · exact .inl (setRegBit_ps_changed hp hz hk).1

/-- Which T0 instruction changes bit `k` of PS. -/
theorem exec_ps_changed {i : Instr} {p q : Value} {k : BitIndex}
    (h : complete config ((t0Execute i).run config s) = .next t) (hp : s.regs.ps = some p) (hq : t.regs.ps = some q)
    (hne : valueBit q k ≠ valueBit p k) :
    (i = .tst ∧ (k = 2 ∨ k = 3)) ∨ (i = .hlt ∧ k = 7) ∨ (i = .setf k ∧ valueBit q k = true) ∨
      (i = .clrf k ∧ valueBit q k = false) := by
  have hwrites : writesStatus i = true := by
    by_contra hquiet
    have hframe : SameRegsExcept [.ac, .dr, .ip, .ar] s t :=
      complete_run_frame _ _ (t0Execute_writesOnly i (by simp) fun hi => absurd hi hquiet) .refl h
    have hps : t.regs.ps = s.regs.ps := hframe .ps (by simp)
    rw [hp, hq] at hps
    cases hps
    exact hne rfl
  cases i with
  | ldi | lda | sta | inc | jmp | jz => cases hwrites
  | tst =>
    have hregs : t.regs = (recalcFromAccumulator config s).state.regs := by
      change complete config ((recalcFromAccumulator config s).bind fun _ u => .ok .continues u) = .next t at h
      cases hx : recalcFromAccumulator config s with
      | ok _ u => exact complete_continues_regs (by simpa [hx] using h)
      | error e u => rw [hx] at h; cases h; rfl
    exact .inl ⟨rfl, recalc_ps_changed hp (hregs ▸ hq) hne⟩
  | hlt =>
    cases h
    exact .inr (.inl ⟨rfl, (setRegBit_ps_changed hp hq hne).1⟩)
  | setf j =>
    have hregs : t.regs = (s.setRegBit config .ps j true).regs := complete_continues_regs h
    obtain ⟨rfl, hb⟩ := setRegBit_ps_changed hp (hregs ▸ hq) hne
    exact .inr (.inr (.inl ⟨rfl, hb⟩))
  | clrf j =>
    have hregs : t.regs = (s.setRegBit config .ps j false).regs := complete_continues_regs h
    obtain ⟨rfl, hb⟩ := setRegBit_ps_changed hp (hregs ▸ hq) hne
    exact .inr (.inr (.inr ⟨rfl, hb⟩))

/-- `parse` of an instruction without operand words gives it (R140). -/
theorem parse_operandless {select : Value → Except IsetError (Selection ι)} {i j : ι} (hs : select w = .ok ⟨0, j⟩)
    (h : parse c select w s = .ok i u) : i = j := by
  simp only [parse, hs, fetchOperands, Result.ok.injEq] at h
  exact h.1.symm

/-- `parse` of an instruction with one operand word gives it for the operand it fetched (R140, R143). -/
theorem parse_oneOperand {select : Value → Except IsetError (Selection ι)} {i : ι} {f : Value → ι}
    (hs : select w = .ok ⟨1, fun v => .ok (f v)⟩) (h : parse c select w s = .ok i u) : ∃ v, i = f v := by
  simp only [parse, hs, fetchOperands, Result.bind_eq_ok, Result.ok.injEq] at h
  obtain ⟨v, -, -, hi, -⟩ := h
  exact ⟨v, hi.symm⟩

/-- The opcode word has the table's `op` of the instruction `parse` gives, and the bit index of `SETF` and `CLRF` (R74, R75). -/
theorem parse_select_opcode {i : Instr} (h : parse c select w s = .ok i u) :
    opcodeOf w = Laws.Encoding.opcode i ∧ ∀ k, i = .setf k ∨ i = .clrf k → bitIndexOf w = k := by
  obtain ⟨hop, hs⟩ | ⟨hop, hs⟩ | ⟨hop, hs⟩ | ⟨hop, hs⟩ | ⟨hop, hs⟩ | ⟨hop, hs⟩ | ⟨hop, hs⟩ | ⟨hop, hs⟩ | ⟨hop, hs⟩ |
    ⟨hop, hs⟩ | ⟨-, -, hs⟩ := select_cases w
  · obtain rfl := parse_operandless hs h; exact ⟨hop, by simp⟩
  · obtain ⟨v, rfl⟩ := parse_oneOperand hs h; exact ⟨hop, by simp⟩
  · obtain ⟨v, rfl⟩ := parse_oneOperand hs h; exact ⟨hop, by simp⟩
  · obtain rfl := parse_operandless hs h; exact ⟨hop, by simp⟩
  · obtain rfl := parse_operandless hs h; exact ⟨hop, by simp⟩
  · obtain ⟨v, rfl⟩ := parse_oneOperand hs h; exact ⟨hop, by simp⟩
  · obtain ⟨v, rfl⟩ := parse_oneOperand hs h; exact ⟨hop, by simp⟩
  · obtain rfl := parse_operandless hs h; exact ⟨hop, by simp⟩
  · obtain rfl := parse_operandless hs h; exact ⟨hop, by simp⟩
  · obtain rfl := parse_operandless hs h; exact ⟨hop, by simp⟩
  · simp [parse, hs] at h

/-- Settles O25: only the instruction itself can change a bit of PS, and its opcode word is the one at IP. -/
theorem statusBitsChangeOnlyByNamedInstructions : Obligations.StatusBitsChangeOnlyByNamedInstructions := by
  intro s t p q k h hp hq hne
  obtain ⟨kind, -, ⟨a, w, i, u, hfp, hx⟩ | ⟨e, u, hfp, rfl⟩⟩ := step_cases h
  · obtain ⟨hf, hparse⟩ := fetchParse_eq_ok hfp
    obtain ⟨hip, -, hw, -⟩ := fetch_eq_ok hf
    obtain ⟨hop, hk⟩ := parse_select_opcode hparse
    have hps : (u.emit kind a w).regs.ps = some p := ((fetchParse_emit_frame hfp).1 .ps (by simp)).trans hp
    refine ⟨a, w, hip, hw, ?_⟩
    obtain ⟨rfl, hk'⟩ | ⟨rfl, rfl⟩ | ⟨rfl, hb⟩ | ⟨rfl, hb⟩ := exec_ps_changed hx hps hq hne
    · exact .inl ⟨hop, hk'⟩
    · exact .inr (.inl ⟨hop, rfl⟩)
    · exact .inr (.inr (.inl ⟨hop, hk k (.inl rfl), hb⟩))
    · exact .inr (.inr (.inr ⟨hop, hk k (.inr rfl), hb⟩))
  · have hps : u.regs.ps = s.regs.ps := (fetchParse_frame hfp).1 .ps (by simp)
    have hpq : some p = some q := by rw [← hp, ← hps]; exact hq
    cases hpq
    exact absurd rfl hne

/-! ### What a T0 step that aborts has written -/

theorem readReg_eq_error {r : Reg} {e : Error} (h : readReg r s = .error e u) : u = s := by
  simpa [h] using readReg_state (s := s) (r := r)

theorem readBit_eq_error {r : Reg} {k : BitIndex} {e : Error} (h : readBit c r k s = .error e u) : u = s := by
  simpa [h] using readBit_state (c := c) (s := s) (r := r) k

theorem memRead_eq_error {e : Error} (h : memRead c a s = .error e u) : u = s.setReg .ar a := by
  obtain ⟨v, -, -, hok⟩ | ⟨e', herr⟩ := memRead_cases c a s <;> simp_all

theorem memWrite_eq_error {v : Value} {e : Error} (h : memWrite c a v s = .error e u) :
    u = (s.setReg .ar a).setReg .dr v := by
  rcases Nat.lt_or_ge a.toNat c.memSize with ha | ha
  · simp [memWrite_ok ha] at h
  · simp_all [memWrite_range ha]

theorem recalc_eq_error {e : Error} (h : recalcFromAccumulator c s = .error e u) : u = s := by
  cases hac : s.regs.ac with
  | none => simp_all [recalc_none hac]
  | some a => simp [recalc_ok hac] at h

/-- A T0 routine that raises has written AR and DR at most (R183: AC is read before the bus is used). -/
theorem t0_run_error {i : Instr} {e : Error} (h : (t0Execute i).run c s = .error e u) :
    SameRegsExcept [.ar, .dr] s u ∧ u.mem = s.mem := by
  cases i with
  | ldi | jmp | setf | clrf | hlt => cases h
  | lda x =>
    have hhead := Result.bind_error_head (fun _ _ _ _ h => by cases h) h
    obtain rfl := memRead_eq_error hhead
    exact ⟨SameRegsExcept.refl.setReg (by simp), rfl⟩
  | sta x =>
    obtain h | ⟨v, _, hac, h⟩ := Result.bind_eq_error.mp h
    · obtain rfl := readReg_eq_error h
      exact ⟨.refl, rfl⟩
    · cases (readReg_eq_ok.mp hac).1
      have h : (memWrite c x v s).bind (fun _ u => .ok Signal.continues u) = .error e u := h
      have hhead := Result.bind_error_head (fun _ _ _ _ h => by cases h) h
      obtain rfl := memWrite_eq_error hhead
      exact ⟨(SameRegsExcept.refl.setReg (by simp)).setReg (by simp), rfl⟩
  | inc =>
    have hhead := Result.bind_error_head (fun _ _ _ _ h => by cases h) h
    obtain rfl := readReg_eq_error hhead
    exact ⟨.refl, rfl⟩
  | tst =>
    have hhead := Result.bind_error_head (fun _ _ _ _ h => by cases h) h
    obtain rfl := recalc_eq_error hhead
    exact ⟨.refl, rfl⟩
  | jz x =>
    have hhead := Result.bind_error_head (fun z _ _ _ h => by cases z <;> cases h) h
    obtain rfl := readBit_eq_error hhead
    exact ⟨.refl, rfl⟩

/-- An instruction that ends in `faulted` where PS holds a value raised the error itself (R137, R138). -/
theorem complete_faulted {x : Result Signal} {e : Error} (h : complete c x = .next t) (ht : t.phase = .faulted e)
    (hps : x.state.regs.ps.isSome = true) (hphase : ∀ e, x.state.phase ≠ .faulted e) :
    ∃ u, x = .error e u ∧ t = u.abort e := by
  obtain ⟨u, rfl, hx⟩ | ⟨u, rfl, -, hx⟩ | ⟨u, p, rfl, -, -, hx⟩ | ⟨u, rfl, hnone, hx⟩ | ⟨e', u, rfl, hx⟩ :=
    complete_cases c x <;> rw [hx] at h <;> cases h
  · cases ht
  · exact absurd ht (hphase e)
  · simp [hnone] at hps
  · cases ht
    exact ⟨u, rfl, rfl⟩

end

/-- Settles O24: neither the fetches nor T0's routines write SP or IN. -/
theorem stackPointerAndInputAreNeverTouched : Obligations.StackPointerAndInputAreNeverTouched := by
  intro s t h
  have hframe : SameRegsExcept [.br, .ar, .dr, .cr, .ip, .ac, .ps] s t := step_frame h
  exact ⟨hframe .sp (by simp), hframe .input (by simp)⟩

/-- Settles O22: the fetches write no data register and no cell, and no T0 routine that raises has written one before. -/
theorem abortLeavesStatusAndDataAlone : Obligations.AbortLeavesStatusAndDataAlone := by
  intro s t e hrun h ht
  suffices hframe : SameRegsExcept [.br, .ar, .dr, .cr, .ip] s t ∧ t.mem = s.mem by
    obtain ⟨hregs, hmem⟩ := hframe
    exact ⟨hregs .ps (by simp), hregs .ac (by simp), hregs .sp (by simp), hregs .input (by simp), hmem⟩
  obtain ⟨kind, hkind, ⟨a, w, i, u, hfp, hx⟩ | ⟨e', u, hfp, rfl⟩⟩ := step_cases h
  · obtain ⟨hregs, hmem⟩ := fetchParse_emit_frame (kind := kind) hfp
    have hphase : (u.emit kind a w).phase = .running kind := by
      simpa [hfp] using fetchParse_stable (select := select) (stable_phase config _) hkind
    have hps : ((u.emit kind a w).regs.get .ps).isSome = true := by
      rw [hregs .ps (by simp)]
      exact ps_isSome_of_runFlag hrun
    have hphase' := Routine.run_stable (stable_phase config _) (t0Execute i) _ hphase
    obtain ⟨v, hv, rfl⟩ := complete_faulted hx ht (Routine.run_stable (stable_isSome config .ps) (t0Execute i) _ hps)
      (by simp [hphase'])
    obtain ⟨hregs', hmem'⟩ := t0_run_error hv
    exact ⟨hregs.trans (hregs'.mono (by simp)), hmem'.trans hmem⟩
  · exact fetchParse_frame hfp

end Sys2Proof.Machine

/-! PROOFS. No T0 step reads a bit of PS but `Z` and `RUN`: two runs side by side. -/

namespace Sys2Proof.Machine

section

variable {c : Config} {s t : State} {ks : List BitIndex} {r : Reg} {a v w : Value} {k : BitIndex} {b : Bool} {ι : Type}

/-! ### Two runs side by side, from states that differ in some bits of PS -/

/-- Two results of one kind, with equal values or equal errors and related states. -/
inductive ResultsAgree (R : State → State → Prop) {α : Type} : Result α → Result α → Prop
  | ok {x : α} {s t : State} : R s t → ResultsAgree R (.ok x s) (.ok x t)
  | error {e : Error} {s t : State} : R s t → ResultsAgree R (.error e s) (.error e t)

theorem ResultsAgree.bind {R : State → State → Prop} {α β : Type} {x y : Result α} {f g : α → State → Result β}
    (hxy : ResultsAgree R x y) (hfg : ∀ a s t, R s t → ResultsAgree R (f a s) (g a t)) :
    ResultsAgree R (x.bind f) (y.bind g) := by
  cases hxy with
  | ok h => exact hfg _ _ _ h
  | error h => exact .error h

namespace SameButPsBits

theorem get_eq (h : SameButPsBits ks s t) (hr : r ≠ .ps) : t.regs.get r = s.regs.get r := by
  obtain ⟨hregs, -⟩ := h
  exact hregs r (by simpa using hr)

theorem mem_eq : SameButPsBits ks s t → t.mem = s.mem := fun ⟨_, _, hmem, _⟩ => hmem

theorem phase_eq : SameButPsBits ks s t → t.phase = s.phase := fun ⟨_, _, _, hphase, _⟩ => hphase

/-- PS is the same Word in both states, or in both a value, and the values differ in the bits `ks` at most. -/
theorem ps_cases (h : SameButPsBits ks s t) : t.regs.ps = s.regs.ps ∨
    ∃ p q, s.regs.ps = some p ∧ t.regs.ps = some q ∧ ∀ k, k ∉ ks → valueBit q k = valueBit p k := by
  obtain ⟨-, hps, -⟩ := h
  exact hps

theorem readReg (h : SameButPsBits ks s t) (hr : r ≠ .ps) :
    ResultsAgree (SameButPsBits ks) (readReg r s) (readReg r t) := by
  cases hs : s.regs.get r with
  | none =>
    rw [readReg_none hs, readReg_none ((h.get_eq hr).trans hs)]
    exact .error h
  | some v =>
    rw [readReg_some hs, readReg_some ((h.get_eq hr).trans hs)]
    exact .ok h

/-- A bit outside `ks` reads alike. -/
theorem readBit (h : SameButPsBits ks s t) (hk : r = .ps → k ∉ ks) :
    ResultsAgree (SameButPsBits ks) (readBit c r k s) (readBit c r k t) := by
  have of_eq (heq : t.regs.get r = s.regs.get r) :
      ResultsAgree (SameButPsBits ks) (Machine.readBit c r k s) (Machine.readBit c r k t) := by
    cases hs : s.regs.get r with
    | none =>
      rw [readBit_none _ hs, readBit_none _ (heq.trans hs)]
      exact .error h
    | some v =>
      rw [readBit_some _ hs, readBit_some _ (heq.trans hs)]
      exact .ok h
  by_cases hr : r = .ps
  · subst hr
    obtain heq | ⟨p, q, hp, hq, hbits⟩ := h.ps_cases
    · exact of_eq heq
    · rw [readBit_some (r := .ps) _ hp, readBit_some (r := .ps) _ hq, hbits k (hk rfl)]
      exact .ok h
  · exact of_eq (h.get_eq hr)

theorem setReg (h : SameButPsBits ks s t) (r : Reg) (v : Value) :
    SameButPsBits ks (s.setReg r v) (t.setReg r v) := by
  obtain ⟨hregs, hps, hmem, hphase, htrace⟩ := h
  refine ⟨fun q hq => ?_, ?_, hmem, hphase, htrace⟩
  · simp only [State.setReg_regs, RegFile.get_set, hregs q hq]
  · by_cases hr : r = .ps
    · subst hr
      exact .inl rfl
    · have hkeep : ∀ u : State, (u.setReg r v).regs.ps = u.regs.ps := fun u =>
        RegFile.get_set_other u.regs r .ps v (Ne.symm hr)
      simpa only [SamePsBitsExcept, hkeep] using hps

/-- A bit write leaves the two values of PS with the bits outside `ks` still equal. -/
theorem setRegBit (h : SameButPsBits ks s t) (r : Reg) (k : BitIndex) (b : Bool) :
    SameButPsBits ks (s.setRegBit c r k b) (t.setRegBit c r k b) := by
  have of_eq (heq : t.regs.get r = s.regs.get r) : SameButPsBits ks (s.setRegBit c r k b) (t.setRegBit c r k b) := by
    simpa only [State.setRegBit, heq] using h.setReg r _
  by_cases hr : r = .ps
  · subst hr
    obtain heq | ⟨p, q, hp, hq, hbits⟩ := h.ps_cases
    · exact of_eq heq
    · obtain ⟨hregs, -, hmem, hphase, htrace⟩ := h
      refine ⟨fun q hq => ?_, .inr ⟨setValueBit p k b, setValueBit q k b, ?_, ?_, fun j hj => ?_⟩, hmem, hphase, htrace⟩
      · have hne : q ≠ .ps := by simpa using hq
        simpa [RegFile.get_set, hne] using hregs q hq
      · simp [RegFile.set, RegFile.get_ps, hp]
      · simp [RegFile.set, RegFile.get_ps, hq]
      · simp only [valueBit_setValueBit, hbits j hj]
  · exact of_eq (h.get_eq hr)

theorem write (h : SameButPsBits ks s t) (a : Nat) (v : Value) :
    SameButPsBits ks { s with mem := s.mem.write a v } { t with mem := t.mem.write a v } := by
  obtain ⟨hregs, hps, hmem, hphase, htrace⟩ := h
  exact ⟨hregs, hps, congrArg (·.write a v) hmem, hphase, htrace⟩

theorem withPhase (h : SameButPsBits ks s t) (p : Phase) :
    SameButPsBits ks { s with phase := p } { t with phase := p } := by
  obtain ⟨hregs, hps, hmem, -, htrace⟩ := h
  exact ⟨hregs, hps, hmem, rfl, htrace⟩

theorem emit (h : SameButPsBits ks s t) (kind : RunKind) (a w : Value) :
    SameButPsBits ks (s.emit kind a w) (t.emit kind a w) := by
  obtain ⟨hregs, hps, hmem, hphase, htrace⟩ := h
  cases kind with
  | run => exact ⟨hregs, hps, hmem, hphase, htrace⟩
  | trace => exact ⟨hregs, hps, hmem, hphase, congrArg (· ++ _) htrace⟩

theorem memRead (h : SameButPsBits ks s t) : ResultsAgree (SameButPsBits ks) (memRead c a s) (memRead c a t) := by
  rcases Nat.lt_or_ge a.toNat c.memSize with ha | ha
  · cases hv : s.mem.read a.toNat with
    | none =>
      rw [memRead_uninit ha hv, memRead_uninit ha (h.mem_eq ▸ hv)]
      exact .error (h.setReg ..)
    | some v =>
      rw [memRead_ok ha hv, memRead_ok ha (h.mem_eq ▸ hv)]
      exact .ok ((h.setReg ..).setReg ..)
  · rw [memRead_range ha, memRead_range ha]
    exact .error (h.setReg ..)

theorem memWrite (h : SameButPsBits ks s t) :
    ResultsAgree (SameButPsBits ks) (memWrite c a v s) (memWrite c a v t) := by
  have h' := (h.setReg .ar a).setReg .dr v
  rcases Nat.lt_or_ge a.toNat c.memSize with ha | ha
  · rw [memWrite_ok ha, memWrite_ok ha]
    exact .ok (h'.write ..)
  · rw [memWrite_range ha, memWrite_range ha]
    exact .error h'

theorem recalc (h : SameButPsBits ks s t) :
    ResultsAgree (SameButPsBits ks) (recalcFromAccumulator c s) (recalcFromAccumulator c t) :=
  (h.readReg (by decide)).bind fun _ _ _ h => .ok ((h.setRegBit ..).setRegBit ..)

theorem fetch (h : SameButPsBits ks s t) : ResultsAgree (SameButPsBits ks) (fetch c s) (fetch c t) :=
  (h.readReg (by decide)).bind fun _ _ _ h =>
    (h.setReg ..).memRead.bind fun _ _ _ h => .ok ((h.setReg ..).setReg ..)

theorem fetchOperand (h : SameButPsBits ks s t) :
    ResultsAgree (SameButPsBits ks) (fetchOperand c s) (fetchOperand c t) :=
  (h.readReg (by decide)).bind fun _ _ _ h => h.memRead.bind fun _ _ _ h => .ok (h.setReg ..)

theorem fetchOperands : ∀ (n : Nat) (k : Operands ι n) {s t : State}, SameButPsBits ks s t →
    ResultsAgree (SameButPsBits ks) (fetchOperands c n k s) (fetchOperands c n k t)
  | 0, _, _, _, h => .ok h
  | n + 1, k, _, _, h => h.fetchOperand.bind fun v s t h => by
    cases k v with
    | error e => exact .error h
    | ok k' => exact fetchOperands n k' h

theorem parse {select : Value → Except IsetError (Selection ι)} (h : SameButPsBits ks s t) :
    ResultsAgree (SameButPsBits ks) (parse c select w s) (parse c select w t) := by
  unfold Machine.parse
  split
  · exact .error h
  · exact fetchOperands _ _ h

theorem fetchParse {select : Value → Except IsetError (Selection ι)} (h : SameButPsBits ks s t) :
    ResultsAgree (SameButPsBits ks) (fetchParse c select s) (fetchParse c select t) :=
  h.fetch.bind fun _ _ _ h => h.parse.bind fun _ _ _ h => .ok h

end SameButPsBits

/-- A routine that reads PS neither as a whole nor at a bit of `ks`. -/
def Routine.ReadsNoBit (ks : List BitIndex) : Routine → Prop
  | .done _ => True
  | .raise _ => True
  | .readReg r next => r ≠ .ps ∧ ∀ v, (next v).ReadsNoBit ks
  | .writeReg _ _ next => next.ReadsNoBit ks
  | .readBit r i next => (r = .ps → i ∉ ks) ∧ ∀ b, (next b).ReadsNoBit ks
  | .writeBit _ _ _ next => next.ReadsNoBit ks
  | .recalc next => next.ReadsNoBit ks
  | .busRead _ next => ∀ v, (next v).ReadsNoBit ks
  | .busWrite _ _ next => next.ReadsNoBit ks

/-- A routine acts alike on two states that differ in bits of PS it does not read. -/
theorem Routine.run_sameButPsBits (p : Routine) : ∀ {s t : State}, p.ReadsNoBit ks → SameButPsBits ks s t →
    ResultsAgree (SameButPsBits ks) (p.run c s) (p.run c t) := by
  induction p with
  | done sig => intro s t _ h; exact .ok h
  | raise e => intro s t _ h; exact .error h
  | readReg r next ih => rintro s t ⟨hr, hp⟩ h; exact (h.readReg hr).bind fun v _ _ h => ih v (hp v) h
  | writeReg r v next ih => intro s t hp h; exact ih hp (h.setReg ..)
  | readBit r i next ih => rintro s t ⟨hi, hp⟩ h; exact (h.readBit hi).bind fun b _ _ h => ih b (hp b) h
  | writeBit r i b next ih => intro s t hp h; exact ih hp (h.setRegBit ..)
  | recalc next ih => intro s t hp h; exact h.recalc.bind fun _ _ _ h => ih hp h
  | busRead a next ih => intro s t hp h; exact h.memRead.bind fun v _ _ h => ih v (hp v) h
  | busWrite a v next ih => intro s t hp h; exact h.memWrite.bind fun _ _ _ h => ih hp h

/-- The outcome handling reads bit 7 of PS and no other (R136 to R138). -/
theorem complete_sameButPsBits {x y : Result Signal} (hrun : (7 : BitIndex) ∉ ks)
    (hxy : ResultsAgree (SameButPsBits ks) x y) :
    OutcomesAgree (SameButPsBits ks) (complete c x) (complete c y) := by
  cases hxy with
  | error h => exact h.withPhase _
  | @ok sig s t h =>
    cases sig with
    | halt => exact (h.setRegBit ..).withPhase _
    | continues =>
      have hread : ResultsAgree (SameButPsBits ks) (readFlag c .running s) (readFlag c .running t) :=
        h.readBit fun _ => hrun
      simp only [complete]
      generalize readFlag c .running s = x at hread ⊢
      generalize readFlag c .running t = y at hread ⊢
      cases hread with
      | @ok running _ _ h =>
        cases running with
        | true => exact h
        | false => exact rfl
      | error h => exact h.withPhase _

/-- With any instruction unit whose routines read no bit of `ks` in PS, and `RUN` not among them, two states that differ in
those bits only step alike. -/
theorem engineStep_sameButPsBits {U : InstructionUnit} (hU : ∀ i, (U.execute i).ReadsNoBit ks) (hrun : (7 : BitIndex) ∉ ks)
    (h : SameButPsBits ks s t) : OutcomesAgree (SameButPsBits ks) (engineStep c U s) (engineStep c U t) := by
  unfold engineStep stepBy
  rw [h.phase_eq]
  cases s.phase with
  | idle | halted | faulted => exact rfl
  | running kind =>
    have hfp := h.fetchParse (c := c) (select := U.select)
    dsimp only
    generalize Machine.fetchParse c U.select s = x at hfp ⊢
    generalize Machine.fetchParse c U.select t = y at hfp ⊢
    cases hfp with
    | ok h => exact complete_sameButPsBits hrun (Routine.run_sameButPsBits _ (hU _) (h.emit ..))
    | error h => exact h.withPhase _

/-- T0 reads PS in `JZ` only, and there bit 2 (R187). -/
theorem t0Execute_readsNoBit (hzero : (2 : BitIndex) ∉ ks) (i : Instr) : (t0Execute i).ReadsNoBit ks := by
  cases i with
  | ldi | tst | jmp | setf | clrf | hlt => exact trivial
  | lda => exact fun _ => trivial
  | sta | inc => exact ⟨by decide, fun _ => trivial⟩
  | jz => exact ⟨fun _ => hzero, fun z => by cases z <;> exact trivial⟩

end

/-- Settles O26: `JZ` reads bit 2, the outcome handling bit 7, and nothing in the engine or T0 another bit of PS. -/
theorem onlyZeroAndRunBitsAreEverRead : Obligations.OnlyZeroAndRunBitsAreEverRead := by
  intro ks s t hzero hrun h
  rw [step_eq_engineStep]
  exact engineStep_sameButPsBits (t0Execute_readsNoBit hzero) hrun h

end Sys2Proof.Machine

/-! PROOFS. The decoder undoes the encoder. -/

namespace Sys2Proof

/-- An opcode word that takes no operand word decodes to the instruction it selects (R71). -/
theorem decode_operandless {w : Value} {i : Instr} (rest : List Value) (h : select w = .ok ⟨0, i⟩) :
    decode (w :: rest) = .ok (i, rest) := by
  simp [decode, h, feed]

/-- An opcode word that takes one operand word decodes with the word after it (R71). -/
theorem decode_oneOperand {w : Value} {f : Value → Instr} (v : Value) (rest : List Value)
    (h : select w = .ok ⟨1, fun t => .ok (f t)⟩) : decode (w :: v :: rest) = .ok (f v, rest) := by
  simp [decode, h, feed]

/-- Each row of R75's table is read back: the opcode word that `encode` writes selects the row and keeps its operand. -/
theorem decode_encode (i : Instr) (rest : List Value) : decode (encode i ++ rest) = .ok (i, rest) := by
  cases i with
  | lda addr16 | sta addr16 | jmp addr16 | jz addr16 => exact decode_oneOperand addr16 rest (by simp [select])
  | ldi imm8 => exact decode_operandless rest (by simp [select])
  | setf k | clrf k => exact decode_operandless rest (by simp [select, bitIndexOf_opcodeWord])
  | inc | tst | hlt => exact decode_operandless rest rfl

/-- Settles O5: image bytes give back the words they were made from. -/
theorem decodeOfEncodeIsTheInstruction : Obligations.DecodeOfEncodeIsTheInstruction := by
  intro i rest
  refine ⟨decode_encode i rest, ?_⟩
  rw [decodeBytes, wordsOfBytes_bytesOfWords, decode_encode]

end Sys2Proof

/-! PROOFS. Memory: the host's writes and the invariant, the bus port, the plain port, `load` and `dump`. -/

namespace Sys2Proof.Machine

section

variable {c : Config} {U : InstructionUnit} {i j : Instance U} {s t : State} {m : Memory} {a v : Value}

/-! ### The host's transactions that write -/

/-- A plain write that is done was made in `idle` and replaces memory alone (R46, R160). -/
theorem hostPlainWrite_eq_done {b : Nat} (h : hostPlainWrite c b v i = .done () j) :
    i.state.phase = .idle ∧ ∃ m, plainWrite c i.state.mem b v = .ok m ∧ j.state = { i.state with mem := m } := by
  unfold hostPlainWrite at h
  split at h
  · refine ⟨‹_›, ?_⟩
    split at h <;> cases h
    exact ⟨_, ‹_›, rfl⟩
  · cases h

/-- A `load` that is done was made in `idle` and replaces memory alone (R47, R160). -/
theorem hostLoad_eq_done {bytes : List Byte} (h : hostLoad c bytes i = .done () j) :
    i.state.phase = .idle ∧ ∃ m, loadMemory c bytes = .ok m ∧ j.state = { i.state with mem := m } := by
  unfold hostLoad at h
  split at h
  · refine ⟨‹_›, ?_⟩
    split at h <;> cases h
    exact ⟨_, ‹_›, rfl⟩
  · cases h

/-- A `loadImage` that is done is a `load` of some bytes, the padded image (R162). -/
theorem hostLoadImage_eq_done {img : List Byte} (h : hostLoadImage c img i = .done () j) :
    ∃ bytes, hostLoad c bytes i = .done () j := by
  unfold hostLoadImage at h
  split at h
  · cases h
  · exact ⟨_, h⟩

/-- A start that is done was made in `idle`, at an address a Word holds (R131). -/
theorem hostStart_eq_done {kind : RunKind} {start : Nat} (h : hostStart c kind start i = .done () j) :
    i.state.phase = .idle ∧ j.state = i.state.beginRun c kind (BitVec.ofNat 16 start) := by
  unfold hostStart at h
  split at h
  · refine ⟨‹_›, ?_⟩
    split at h <;> cases h
    rfl
  · cases h

/-! ### The invariant -/

/-- Of memory the invariant asks the canonical form and nothing else (R41). -/
theorem State.Inv.withMem (h : State.Inv c s) (hm : m.wf c.memSize = true) : State.Inv c { s with mem := m } :=
  ⟨hm, h.2⟩

theorem State.beginRun_runFlag {kind : RunKind} : (s.beginRun c kind a).runFlag = true := by
  have hps : (s.beginRun c kind a).regs.ps = some (setBit c s.regs.ps 7 true) := rfl
  simp [runFlag_eq hps, valueBit_setBit]

/-- A run starts with `RUN` = 1, IP written and the empty stream of `idle` (R131, R32). -/
theorem State.Inv.beginRun {kind : RunKind} (h : State.Inv c s) (hidle : s.phase = .idle) :
    State.Inv c (s.beginRun c kind a) := by
  obtain ⟨hwf, hphase⟩ := h
  simp only [hidle] at hphase
  exact ⟨hwf, State.beginRun_runFlag, rfl, fun _ => hphase.2⟩

theorem hostLoad_keeps_inv {bytes : List Byte} (hinv : State.Inv c i.state) (h : hostLoad c bytes i = .done () j) :
    State.Inv c j.state := by
  obtain ⟨-, m, hm, hj⟩ := hostLoad_eq_done h
  exact hj ▸ hinv.withMem (loadMemory_wf hm)

end

/-- Settles O4: the host writes a memory in canonical form, or starts a run. -/
theorem hostTransactionsKeepTheInvariant : Obligations.HostTransactionsKeepTheInvariant := by
  intro c U i hinv
  refine ⟨fun _ _ h => hostLoad_keeps_inv hinv h, fun img j h => ?_, fun b v j h => ?_, fun kind start j h => ?_⟩
  · obtain ⟨bytes, hload⟩ := hostLoadImage_eq_done h
    exact hostLoad_keeps_inv hinv hload
  · obtain ⟨-, m, hm, hj⟩ := hostPlainWrite_eq_done h
    exact hj ▸ hinv.withMem (plainWrite_wf hinv.1 hm)
  · obtain ⟨hidle, hj⟩ := hostStart_eq_done h
    exact hj ▸ hinv.beginRun hidle

/-! ### The bus port -/

/-- A bus write that succeeds went to a cell inside memory (R45). -/
theorem memWrite_eq_ok {c : Config} {s t : State} {a v : Value} (h : memWrite c a v s = .ok () t) :
    a.toNat < c.memSize ∧ t = { (s.setReg .ar a).setReg .dr v with mem := s.mem.write a.toNat v } := by
  rcases Nat.lt_or_ge a.toNat c.memSize with ha | ha
  · rw [memWrite_ok ha] at h
    cases h
    exact ⟨ha, rfl⟩
  · rw [memWrite_range ha] at h
    cases h

/-- Settles O30: the fetch reads the memory the store left. -/
theorem fetchSeesTheLastStore : Obligations.FetchSeesTheLastStore := by
  intro c s t a v b h hip hb
  obtain ⟨-, rfl⟩ := memWrite_eq_ok h
  refine ⟨fun hba => ?_, fun hba w hw => ?_⟩
  · subst hba
    exact ⟨_, fetch_ok hip hb (Memory.read_write_self ..)⟩
  · have hne : b.toNat ≠ a.toNat := fun e => hba (BitVec.eq_of_toNat_eq e)
    exact ⟨_, fetch_ok hip hb ((Memory.read_write_other _ v hne).trans hw)⟩

/-- Settles O31: past its address operand a bus read is `memRead`, which writes AR, and DR where it succeeds. -/
theorem busReadMirrorsIntoArAndDr : Obligations.BusReadMirrorsIntoArAndDr := by
  intro c s
  refine ⟨rfl, fun a => ?_⟩
  have hframe : SameRegsExcept [.ar] s (s.setReg .ar a) := SameRegsExcept.refl.setReg (by simp)
  refine ⟨fun ha => ?_, fun ha hv => ?_, fun v ha hv => ?_⟩
  · exact ⟨_, memRead_range ha, rfl, hframe, rfl, rfl, rfl⟩
  · exact ⟨_, memRead_uninit ha hv, rfl, hframe, rfl, rfl, rfl⟩
  · exact ⟨_, memRead_ok ha hv, rfl, rfl, (hframe.mono (by simp)).setReg (by simp), rfl, rfl, rfl⟩

/-- Settles O32: past its two operands a bus write is `memWrite`, which writes AR and DR and then the cell. -/
theorem busWriteMirrorsIntoArAndDr : Obligations.BusWriteMirrorsIntoArAndDr := by
  intro c s
  refine ⟨fun _ => rfl, fun _ => rfl, fun a v => ?_⟩
  have hframe : SameRegsExcept [.ar, .dr] s ((s.setReg .ar a).setReg .dr v) :=
    (SameRegsExcept.refl.setReg (by simp)).setReg (by simp)
  refine ⟨fun ha => ?_, fun ha => ?_⟩
  · exact ⟨_, memWrite_range ha, rfl, rfl, hframe, rfl, rfl, rfl⟩
  · exact ⟨_, memWrite_ok ha, rfl, rfl, hframe, Memory.read_write_self .., fun _ => Memory.read_write_other _ v, rfl, rfl⟩

/-! ### The plain port and the host's reads -/

section

variable {c : Config} {U : InstructionUnit} {i : Instance U} {m : Memory} {a : Nat} {v : Value}

theorem plainRead_ok (ha : a < c.memSize) : plainRead c m a = .ok (m.read a) := if_pos ha

theorem plainRead_range (ha : c.memSize ≤ a) : plainRead c m a = .error (.addressOutOfRange a) :=
  if_neg (Nat.not_lt.mpr ha)

theorem plainWrite_ok (ha : a < c.memSize) : plainWrite c m a v = .ok (m.write a v) := if_pos ha

theorem plainWrite_range (ha : c.memSize ≤ a) : plainWrite c m a v = .error (.addressOutOfRange a) :=
  if_neg (Nat.not_lt.mpr ha)

theorem Phase.hostMayRead_of_not_running {p : Phase} (h : ∀ kind, p ≠ .running kind) : p.hostMayRead = true := by
  cases p with
  | running kind => exact absurd rfl (h kind)
  | idle | halted | faulted => rfl

/-- Where the host may read, an answer is given and the state stays (R160). -/
theorem Instance.hostRead_ok {α : Type} {answer : Except Error α} {x : α} (hread : i.state.phase.hostMayRead = true)
    (h : answer = .ok x) : i.hostRead answer = .done x i := by
  simp [Instance.hostRead, hread, h]

/-- Where the host may read, a failure is reported and the state stays (R204). -/
theorem Instance.hostRead_error {α : Type} {answer : Except Error α} {e : Error}
    (hread : i.state.phase.hostMayRead = true) (h : answer = .error e) : i.hostRead answer = .failed e i := by
  simp [Instance.hostRead, hread, h]

end

/-- Settles O33, by the range check of R41 that both plain accesses begin with. -/
theorem plainPortHasNoSideEffect : Obligations.PlainPortHasNoSideEffect := by
  intro c U s a v hidle
  have hread : s.phase.hostMayRead = true := by rw [hidle]; rfl
  refine ⟨fun ha => ⟨Instance.hostRead_ok hread (plainRead_ok ha), { s with mem := s.mem.write a v }, ?_,
    Memory.read_write_self .., fun _ => Memory.read_write_other _ v, rfl, rfl, rfl⟩,
    fun ha => ⟨Instance.hostRead_error hread (plainRead_range ha), ?_⟩⟩
  · simp [hostPlainWrite, hidle, plainWrite_ok ha]
  · simp [hostPlainWrite, hidle, plainWrite_range ha]

/-- Settles O38: each is a host read of what the operation on the state answers. -/
theorem hostReadsGiveTheWordAndChangeNothing : Obligations.HostReadsGiveTheWordAndChangeNothing := by
  intro c U i hphase
  have hread := Phase.hostMayRead_of_not_running hphase
  refine ⟨fun _ => Instance.hostRead_ok hread rfl, fun f p hp => Instance.hostRead_ok hread ?_,
    fun f hp => Instance.hostRead_error hread ?_, fun _ ha => Instance.hostRead_ok hread (plainRead_ok ha),
    fun _ ha => Instance.hostRead_error hread (plainRead_range ha), fun _ => Instance.hostRead_ok hread,
    fun _ => Instance.hostRead_error hread⟩
  · rw [hp, getBit_some]
  · rw [hp, getBit_none]

/-! ### `load` and `dump` -/

/-- `dump` stops at the first never-written cell (R48). -/
theorem dumpCells_unwritten {m : Memory} {b : Nat} (hb : m.read b = none) : ∀ {n a : Nat}, a ≤ b → b < a + n →
    (∀ k, a ≤ k → k < b → (m.read k).isSome = true) → dumpCells m n a = .error (.uninitializedRead (.cell b))
  | 0, _, hle, hlt, _ => by omega
  | n + 1, a, hle, hlt, h => by
    rcases Nat.eq_or_lt_of_le hle with rfl | hab
    · simp [dumpCells, hb]
    · obtain ⟨v, hv⟩ := Option.isSome_iff_exists.mp (h a (Nat.le_refl a) hab)
      have ih := dumpCells_unwritten hb (n := n) hab (by omega) fun k hk => h k (by omega)
      simp only [dumpCells, hv, ih]
      rfl

/-- `dump` of written cells gives two bytes for each, high byte first (R48). -/
theorem dumpCells_written {m : Memory} : ∀ {n a : Nat}, (∀ k, k < n → (m.read (a + k)).isSome = true) →
    ∃ bytes, dumpCells m n a = .ok bytes ∧ bytes.length = 2 * n ∧ ∀ k v, k < n → m.read (a + k) = some v →
      bytes[2 * k]? = some (highByte v) ∧ bytes[2 * k + 1]? = some (lowByte v)
  | 0, _, _ => ⟨[], rfl, rfl, by simp⟩
  | n + 1, a, h => by
    obtain ⟨v, hv⟩ := Option.isSome_iff_exists.mp (h 0 (Nat.succ_pos n))
    have hshift : ∀ k, a + 1 + k = a + (k + 1) := by omega
    obtain ⟨bytes, hdump, hlen, hbytes⟩ := dumpCells_written (m := m) (n := n) (a := a + 1) fun k hk =>
      hshift k ▸ h (k + 1) (by omega)
    refine ⟨highByte v :: lowByte v :: bytes, ?_, by simp [hlen]; omega, fun k w hk hw => ?_⟩
    · simp only [dumpCells, show m.read a = some v from hv, hdump]
      rfl
    · cases k with
      | zero =>
        cases hv.symm.trans hw
        exact ⟨rfl, rfl⟩
      | succ k => exact hbytes k w (by omega) (hshift k ▸ hw)

/-- The cells of an image: two bytes a cell, high byte first (R47). -/
theorem imageCells_read {high low : Byte} : ∀ {bytes : List Byte} {a k : Nat}, bytes[2 * k]? = some high →
    bytes[2 * k + 1]? = some low → (imageCells a bytes).read (a + k) = some (joinBytes high low)
  | [], _, _, h, _ => by simp at h
  | [_], _, k, _, h => by simp at h
  | x :: y :: rest, a, 0, hh, hl => by
    cases hh
    cases hl
    simp [imageCells, Memory.read]
  | x :: y :: rest, a, k + 1, hh, hl => by
    have hne : a + (k + 1) ≠ a := by omega
    have ih : (imageCells (a + 1) rest).read (a + 1 + k) = some (joinBytes high low) := imageCells_read hh hl
    rw [show a + 1 + k = a + (k + 1) by omega] at ih
    simpa [imageCells, Memory.read, hne] using ih

/-- Bytes of the exact length hold two bytes for every cell (R47). -/
theorem exists_cell_bytes {bytes : List Byte} {n k : Nat} (hlen : bytes.length = 2 * n) (hk : k < n) :
    ∃ high low, bytes[2 * k]? = some high ∧ bytes[2 * k + 1]? = some low :=
  ⟨_, _, List.getElem?_eq_getElem (by omega), List.getElem?_eq_getElem (by omega)⟩

/-- Settles O36, from the first cell on. -/
theorem dumpFailsAtTheFirstUnwrittenCell : Obligations.DumpFailsAtTheFirstUnwrittenCell := by
  intro c m
  refine ⟨fun a ha hnone hbelow => ?_, fun h => ?_⟩
  · exact dumpCells_unwritten hnone (Nat.zero_le a) (by omega) fun k _ => hbelow k
  · simpa only [Nat.zero_add, dumpMemory] using
      dumpCells_written (m := m) (n := c.memSize) (a := 0) (by simpa using h)

/-- Settles O35: the memory that `load` installs is the cells of its bytes. -/
theorem loadFillsCellsBigEndian : Obligations.LoadFillsCellsBigEndian := by
  intro c U s bytes hidle
  refine ⟨fun hlen => by simp [hostLoad, hidle, loadMemory, hlen], fun hlen => ?_⟩
  refine ⟨{ s with mem := imageCells 0 bytes }, by simp [hostLoad, hidle, loadMemory, hlen], rfl, ⟨rfl, rfl⟩, fun a ha => ?_⟩
  obtain ⟨high, low, hh, hl⟩ := exists_cell_bytes hlen ha
  exact ⟨joinBytes high low, high, low, Nat.zero_add a ▸ imageCells_read hh hl, hh, hl, joinBytes_toNat high low⟩

/-- `dump` from cell `a` on does not look at the cells below (R48). -/
theorem dumpCells_cons_of_lt {b : Nat} (v : Value) (m : Memory) : ∀ (n : Nat) {a : Nat}, b < a →
    dumpCells ((b, v) :: m) n a = dumpCells m n a
  | 0, _, _ => rfl
  | n + 1, a, h => by
    have hne : a ≠ b := by omega
    simp [dumpCells, Memory.read, hne, dumpCells_cons_of_lt v m n (Nat.lt_succ_of_lt h)]

/-- The cells of an image, dumped, are its bytes (R47, R48). -/
theorem dumpCells_imageCells : ∀ {bytes : List Byte} {n a : Nat}, bytes.length = 2 * n →
    dumpCells (imageCells a bytes) n a = .ok bytes
  | [], 0, _, _ => rfl
  | high :: low :: rest, n + 1, a, h => by
    have hlen : rest.length = 2 * n := by simp only [List.length_cons] at h; omega
    have hread : (imageCells a (high :: low :: rest)).read a = some (joinBytes high low) := if_pos rfl
    have hrest : dumpCells (imageCells a (high :: low :: rest)) n (a + 1) = .ok rest :=
      (dumpCells_cons_of_lt _ _ n (Nat.lt_succ_self a)).trans (dumpCells_imageCells hlen)
    simp only [dumpCells, hread, hrest, Except.map, highByte_joinBytes, lowByte_joinBytes]
  | [], n + 1, _, h => by simp at h
  | [_], n, _, h => by simp only [List.length_singleton] at h; omega
  | _ :: _ :: _, 0, _, h => by simp at h

/-- Settles O34: `load` makes the cells of the bytes, and `dump` reads them back from cell 0. -/
theorem loadThenDumpReturnsTheBytes : Obligations.LoadThenDumpReturnsTheBytes := fun _ bytes hlen =>
  ⟨imageCells 0 bytes, if_pos hlen, dumpCells_imageCells hlen⟩

end Sys2Proof.Machine

/-! PROOFS. Encodings: what the encoder keeps of a decoded word, the illegal opcode words, and the words of the assembler. -/

namespace Sys2Proof

section

variable {w : Value} {ws rest : List Value} {i : Instr} {op : BitVec 8}

/-! ### Encoding what was decoded -/

/-- A mask on a cell is a mask on each of its bytes (R49). -/
theorem joinBytes_and (high low high' low' : Byte) :
    joinBytes (high &&& high') (low &&& low') = joinBytes high low &&& joinBytes high' low' :=
  BitVec.eq_of_getLsbD_eq fun i _ => by
    simp only [BitVec.getLsbD_and, getLsbD_joinBytes]
    split <;> rfl

/-- A mask that keeps `op` and some bits of byte 0 (R73). -/
theorem and_opcodeWord (hop : opcodeOf w = op) (mask : BitVec 8) :
    w &&& opcodeWord 0xFF mask = opcodeWord op (imm8Of w &&& mask) :=
  calc w &&& opcodeWord 0xFF mask
      = opcodeWord op (imm8Of w) &&& opcodeWord 0xFF mask := by rw [← hop, opcodeWord_fields]
    _ = opcodeWord (op &&& 0xFF) (imm8Of w &&& mask) := (joinBytes_and ..).symm
    _ = opcodeWord op (imm8Of w &&& mask) := congrArg (opcodeWord · _) (BitVec.and_allOnes (w := 8))

/-- The bit index of `SETF` and `CLRF` is bits 3..0 of `imm8` (R74). -/
theorem ofNat_bitIndexOf (w : Value) : BitVec.ofNat 8 (bitIndexOf w).val = imm8Of w &&& 0x0F :=
  BitVec.eq_of_toNat_eq <|
    calc (BitVec.ofNat 8 (bitIndexOf w).val).toNat
        = w.toNat % 16 % 256 := by simp [bitIndexOf]
      _ = w.toNat % 256 % 2 ^ 4 := by omega
      _ = (imm8Of w &&& 0x0F).toNat := by simp [imm8Of, ← Nat.and_two_pow_sub_one_eq_mod _ 4]

/-- The word with all of byte 0 kept, as in `LDI` (R73). -/
theorem opcodeWord_imm8Of (hop : opcodeOf w = op) : opcodeWord op (imm8Of w) = w &&& 0xFFFF := by
  rw [← hop, opcodeWord_fields]
  exact (BitVec.and_allOnes (w := 16)).symm

/-- The word with byte 0 ignored (R73). -/
theorem opcodeWord_zero (hop : opcodeOf w = op) : opcodeWord op 0 = w &&& 0xFF00 :=
  (congrArg (opcodeWord op) BitVec.and_zero).symm.trans (and_opcodeWord hop 0x00).symm

/-- The word with bits 7..4 ignored, as in `SETF` and `CLRF` (R74). -/
theorem opcodeWord_bitIndexOf (hop : opcodeOf w = op) :
    opcodeWord op (BitVec.ofNat 8 (bitIndexOf w).val) = w &&& 0xFF0F :=
  (congrArg (opcodeWord op) (ofNat_bitIndexOf w)).trans (and_opcodeWord hop 0x0F).symm

/-- A row without operand words took its opcode word alone from the list, so only that word is to be compared (R71). -/
theorem encode_of_decode_operandless {j : Instr} (hs : select w = .ok ⟨0, j⟩) (hj : encode j = [w &&& opcodeMask j])
    (h : decode (w :: ws) = .ok (i, rest)) :
    ∃ operands, ws = operands ++ rest ∧ encode i = (w &&& opcodeMask i) :: operands := by
  rw [decode_operandless ws hs] at h
  cases h
  exact ⟨[], rfl, hj⟩

/-- A row with one operand word took the opcode word and the word after it, which it keeps whole (R71). -/
theorem encode_of_decode_oneOperand {f : Value → Instr} (hs : select w = .ok ⟨1, fun t => .ok (f t)⟩)
    (hf : ∀ v, encode (f v) = [w &&& opcodeMask (f v), v]) (h : decode (w :: ws) = .ok (i, rest)) :
    ∃ operands, ws = operands ++ rest ∧ encode i = (w &&& opcodeMask i) :: operands := by
  cases ws with
  | nil => simp [decode, hs, feed] at h
  | cons v ws =>
    rw [decode_oneOperand v ws hs] at h
    cases h
    exact ⟨[v], rfl, hf v⟩

/-- What an opcode word decodes to, row by row of R75's table, is encoded as that word with its ignored bits 0 (R73, R78). -/
theorem encode_of_decode (h : decode (w :: ws) = .ok (i, rest)) :
    ∃ operands, ws = operands ++ rest ∧ encode i = (w &&& opcodeMask i) :: operands := by
  obtain ⟨hop, hs⟩ | ⟨hop, hs⟩ | ⟨hop, hs⟩ | ⟨hop, hs⟩ | ⟨hop, hs⟩ | ⟨hop, hs⟩ | ⟨hop, hs⟩ | ⟨hop, hs⟩ | ⟨hop, hs⟩ |
    ⟨hop, hs⟩ | ⟨-, -, hs⟩ := select_cases w
  · exact encode_of_decode_operandless hs (congrArg ([·]) (opcodeWord_imm8Of hop)) h
  · exact encode_of_decode_oneOperand hs (fun v => congrArg ([·, v]) (opcodeWord_zero hop)) h
  · exact encode_of_decode_oneOperand hs (fun v => congrArg ([·, v]) (opcodeWord_zero hop)) h
  · exact encode_of_decode_operandless hs (congrArg ([·]) (opcodeWord_zero hop)) h
  · exact encode_of_decode_operandless hs (congrArg ([·]) (opcodeWord_zero hop)) h
  · exact encode_of_decode_oneOperand hs (fun v => congrArg ([·, v]) (opcodeWord_zero hop)) h
  · exact encode_of_decode_oneOperand hs (fun v => congrArg ([·, v]) (opcodeWord_zero hop)) h
  · exact encode_of_decode_operandless hs (congrArg ([·]) (opcodeWord_bitIndexOf hop)) h
  · exact encode_of_decode_operandless hs (congrArg ([·]) (opcodeWord_bitIndexOf hop)) h
  · exact encode_of_decode_operandless hs (congrArg ([·]) (opcodeWord_zero hop)) h
  · simp [decode, hs] at h

end

/-- Settles O6: a list that decodes begins with an opcode word, and the encoder writes it back but for its ignored bits. -/
theorem encodeOfDecodeAgreesOnEveryReadBit : Obligations.EncodeOfDecodeAgreesOnEveryReadBit := by
  intro ws rest i h
  cases ws with
  | nil => cases h
  | cons w ws =>
    obtain ⟨operands, rfl, hi⟩ := encode_of_decode h
    exact ⟨w, operands, rfl, hi⟩

end Sys2Proof

namespace Sys2Proof.Machine

section

variable {c : Config} {s t : State} {w : Value} {kind : RunKind} {ι : Type}

/-! ### Illegal opcode words -/

/-- Every opcode word outside `0x09 .. 0xFE` selects an instruction (R75, R76). -/
theorem select_legal (h : (opcodeOf w).toNat < 9 ∨ (opcodeOf w).toNat = 0xFF) : ∃ sel, select w = .ok sel := by
  cases hs : select w with
  | ok sel => exact ⟨sel, rfl⟩
  | error e =>
    have hrows := select_cases w
    simp only [hs, reduceCtorEq, and_false, false_or] at hrows
    omega

/-- The word that was fetched is rejected before any operand fetch: the step aborts from the state the fetch left (R134, R138). -/
theorem stepBy_rejected {select : Value → Except IsetError (Selection ι)}
    {exec : ι → State → Host.Outcome State Fault Refusal} {a : Value} {e : IsetError} (hphase : s.phase = .running kind)
    (hf : fetch c s = .ok (a, w) t) (hs : select w = .error e) :
    stepBy c select exec s = .next (t.abort (.isetError e)) := by
  have hparse : fetchParse c select s = .error (.isetError e) t := by simp [fetchParse, hf, parse, hs]
  simp [stepBy, hphase, hparse]

end

/-- Settles O7: `select` answers by `op` alone, and a rejected word aborts the step right after the fetch of R133. -/
theorem illegalOpcodeWordsAbortTheStep : Obligations.IllegalOpcodeWordsAbortTheStep := by
  refine ⟨fun w => ?_, fun s kind a w hphase hip ha hw h9 hFE => ?_, rfl⟩
  · by_cases hop : 9 ≤ (opcodeOf w).toNat ∧ (opcodeOf w).toNat ≤ 0xFE
    · exact .inl ⟨hop.1, hop.2, select_illegal hop.1 hop.2⟩
    · have hlegal : (opcodeOf w).toNat < 9 ∨ (opcodeOf w).toNat = 0xFF := by omega
      exact .inr ⟨hlegal, select_legal hlegal⟩
  · have hadv : advance config a = a + 1#16 := ((ipAdvanceWrapsAtTheModulus config a (by decide)).1 rfl).1
    exact ⟨_, stepBy_rejected hphase (fetch_ok hip ha hw) (select_illegal h9 hFE), rfl, rfl, rfl, rfl, rfl,
      congrArg some hadv, fetched_frame, fun _ => rfl, rfl⟩

/-! ### The words of the assembler -/

/-- The words of a statement that stands for an instruction are its encoding (R78). -/
theorem statementWords_eq_encode {labels : List (String × Value)} {st : Statement} {i : Instr}
    (h : st.instr? labels = some i) : statementWords labels st = some (encode i) := by
  cases st with
  | dw n | org a => cases h
  | ldi | lda | sta | inc | tst | jmp | jz | setf | clrf | hlt => simp [statementWords, Statement.wellFormed, h]

/-- The assembler counts for such a statement the words of its instruction (R75, R78). -/
theorem length_encode_eq_size {labels : List (String × Value)} {st : Statement} {i : Instr}
    (h : st.instr? labels = some i) : (encode i).length = Statement.size st := by
  cases st with
  | dw n | org a => cases h
  | inc | tst | hlt => cases h; rfl
  | ldi n =>
    obtain ⟨-, hi⟩ := Option.ite_none_right_eq_some.mp h
    cases hi
    rfl
  | lda x | sta x | jmp x | jz x | setf x | clrf x =>
    obtain ⟨v, -, rfl⟩ := Option.map_eq_some_iff.mp h
    rfl

/-- Settles O9: the statement's words are the encoding of its instruction, which the decoder reads back. -/
theorem assembledStatementsDecode : Obligations.AssembledStatementsDecode := fun _ _ i rest h =>
  ⟨encode i, statementWords_eq_encode h, length_encode_eq_size h, decode_encode i rest⟩

/-- Settles O8: words given as literals, so the decoder runs on them. -/
theorem tableWordsDecode : Obligations.TableWordsDecode := by
  unfold Obligations.TableWordsDecode
  decide

end Sys2Proof.Machine

/-! PROOFS. The Word operations: the reads of a Word (R92 to R98), and one form for the five comparisons (R99, R100), each of
which reads the left operand, then the right one, then answers a relation of the unsigned values. -/

namespace Sys2Proof.Machine

@[simp] theorem toUnsigned_none (what : Subject) : toUnsigned what none = .error (.uninitializedRead what) := rfl

@[simp] theorem toUnsigned_some (what : Subject) (v : Value) : toUnsigned what (some v) = .ok v := rfl

theorem valueIsZero_eq (v : Value) : valueIsZero v = decide (v.toNat = 0) :=
  decide_eq_decide.mpr (BitVec.toNat_eq (y := 0#16))

@[simp] theorem isZero_some (v : Value) : isZero (some v) = .ok (decide (v.toNat = 0)) :=
  congrArg Except.ok (valueIsZero_eq v)

@[simp] theorem increment_some (v : Value) : increment (some v) = .ok (some (incrementValue v)) := rfl

theorem incrementValue_ofNat (n : Nat) : incrementValue (BitVec.ofNat 16 n) = BitVec.ofNat 16 ((n + 1) % 65536) :=
  BitVec.eq_of_toNat_eq (by simp [incrementValue_toNat])

theorem bitIndex?_of_lt {n : Nat} (h : n < 16) : bitIndex? n = .ok ⟨n, h⟩ := dif_pos h

theorem bitIndex?_of_le {n : Nat} (h : 16 ≤ n) : bitIndex? n = .error .bitIndex := dif_neg (Nat.not_lt.mpr h)

/-- A comparison of two Words by a relation of their unsigned values: the left Word is read first (R99, R100, R211). -/
def compareWords (rel : Nat → Nat → Prop) [DecidableRel rel] (x y : Word) : Except Error Bool :=
  (toUnsigned .leftOperand x).bind fun a => (toUnsigned .rightOperand y).map fun b => decide (rel a.toNat b.toNat)

section
variable (rel : Nat → Nat → Prop) [DecidableRel rel] (x y : Word)

@[simp] theorem compareWords_some_some (a b : Value) :
    compareWords rel (some a) (some b) = .ok (decide (rel a.toNat b.toNat)) := rfl

@[simp] theorem compareWords_none_left : compareWords rel none y = .error (.uninitializedRead .leftOperand) := rfl

@[simp] theorem compareWords_none_right (a : Value) :
    compareWords rel (some a) none = .error (.uninitializedRead .rightOperand) := rfl

/-- Negating the answer compares by the negated relation and leaves the failures. -/
theorem map_not_compareWords : (compareWords rel x y).map (!·) = compareWords (fun a b => ¬ rel a b) x y := by
  rcases x with _ | a
  · rfl
  rcases y with _ | b
  · rfl
  · exact congrArg Except.ok decide_not.symm

theorem compareWords_congr {rel' : Nat → Nat → Prop} [DecidableRel rel'] (h : ∀ a b, rel a b ↔ rel' a b) :
    compareWords rel x y = compareWords rel' x y := by
  simp only [compareWords, h]

theorem wordEq_eq_compareWords : wordEq x y = compareWords (· = ·) x y := by
  simp only [wordEq, compareWords, BitVec.toNat_eq]

theorem wordLt_eq_compareWords : wordLt x y = compareWords (· < ·) x y := rfl

/-- The model's `le` is the disjunction of its `lt` and its `eq`. -/
theorem wordLe_eq_compareWords : wordLe x y = compareWords (· ≤ ·) x y := by
  rw [wordLe, wordLt_eq_compareWords, wordEq_eq_compareWords]
  rcases x with _ | a
  · rfl
  rcases y with _ | b
  · rfl
  · have hle : (decide (a.toNat < b.toNat) || decide (a.toNat = b.toNat)) = decide (a.toNat ≤ b.toNat) := by
      simp [Nat.le_iff_lt_or_eq]
    exact congrArg Except.ok hle

theorem wordGt_eq_compareWords : wordGt x y = compareWords (· > ·) x y := by
  rw [wordGt, wordLe_eq_compareWords, map_not_compareWords]
  exact compareWords_congr _ x y fun _ _ => Nat.not_le

theorem wordGe_eq_compareWords : wordGe x y = compareWords (· ≥ ·) x y := by
  rw [wordGe, wordLt_eq_compareWords, map_not_compareWords]
  exact compareWords_congr _ x y fun _ _ => Nat.not_lt

end

/-- Settles O43: adding 1 to `n mod 2^16` gives `n + 1` modulo `2^16`, and the error comes from `toUnsigned`. -/
theorem incrementWrapsModuloTheWord : Obligations.IncrementWrapsModuloTheWord :=
  ⟨fun n => toUnsigned_some _ (BitVec.ofNat 16 n),
    fun n => (increment_some _).trans (congrArg (Except.ok ∘ some) (incrementValue_ofNat n)),
    rfl⟩

/-- Settles O44: each inspection is a function of the value `toUnsigned` reads, or its error. -/
theorem wordInspectionsReadTheWholeValue : Obligations.WordInspectionsReadTheWholeValue :=
  ⟨fun v => ⟨toUnsigned_some _ v, isZero_some v, rfl⟩, toUnsigned_none _, rfl, rfl⟩

/-- Settles O45, by the bits of a Word after a bit write and the range check of a bit index. -/
theorem bitAccessReadsAndWritesOneBit : Obligations.BitAccessReadsAndWritesOneBit :=
  ⟨fun x i k b => valueBit_setBit config x i k b,
    fun v i => getBit_some config .operand v i,
    fun i => getBit_none config .operand i,
    fun _ => ⟨fun h => ⟨_, bitIndex?_of_lt h, rfl⟩, bitIndex?_of_le⟩⟩

/-- Settles O46: all five comparisons are `compareWords`, which reads the left operand first. -/
theorem comparisonsNeedInitializedWords : Obligations.ComparisonsNeedInitializedWords := by
  unfold Obligations.ComparisonsNeedInitializedWords
  simp only [wordEq_eq_compareWords, wordLt_eq_compareWords, wordLe_eq_compareWords, wordGt_eq_compareWords,
    wordGe_eq_compareWords]
  refine ⟨fun x y => ?_, fun y => ?_, fun x => ?_⟩
  · simp only [compareWords_some_some, gt_iff_lt, ge_iff_le, and_self]
  · simp only [compareWords_none_left, and_self]
  · simp only [compareWords_none_right, and_self]

end Sys2Proof.Machine

/-! PROOFS. The register file and the flags: register access (R110, R111), and the flags as bits of PS (R113 to R116). -/

namespace Sys2Proof.Machine

section

variable {c : Config} {s t : State} {rs : List Reg} {f : Flag} {a p : Value} {b : Bool}

/-! ### A bit write as an exclusive or -/

theorem setBit_eq_setValueBit (c : Config) (x : Word) (i : BitIndex) (b : Bool) :
    setBit c x i b = setValueBit (x.getD 0#16) i b := by
  cases x with
  | none => exact setBit_none c i b
  | some v => rfl

theorem valueBit_xor (v w : Value) (k : BitIndex) : valueBit (v ^^^ w) k = (valueBit v k ^^ valueBit w k) :=
  BitVec.getLsbD_xor

theorem valueBit_twoPow (i k : BitIndex) : valueBit (BitVec.twoPow 16 i.val) k = decide (k = i) := by
  simp [valueBit, Fin.ext_iff, eq_comm]

/-- A bit write keeps the value or inverts its bit (R114). -/
theorem setValueBit_xor (v : Value) (i : BitIndex) (b : Bool) :
    setValueBit v i b ^^^ v = 0#16 ∨ setValueBit v i b ^^^ v = BitVec.twoPow 16 i.val := by
  by_cases hb : valueBit v i = b
  · left
    rw [← hb, setValueBit_same, BitVec.xor_self]
  · right
    refine value_ext_bits fun k => ?_
    rw [valueBit_xor, valueBit_setValueBit, valueBit_twoPow]
    by_cases hk : k = i
    · rw [hk, if_pos rfl, decide_eq_true rfl]
      exact Bool.xor_iff_ne.mpr (Ne.symm hb)
    · simp [hk]

/-! ### Flag access -/

theorem readFlag_of_ps (h : s.regs.ps = some p) : readFlag c f s = .ok (valueBit p f.bit) s :=
  readBit_some (r := .ps) f.bit h

theorem setFlag_ps : (s.setFlag c f b).regs.ps = some (setBit c s.regs.ps f.bit b) := rfl

/-- A flag reads as it was last written (R113, R114). -/
theorem readFlag_setFlag : readFlag c f (s.setFlag c f b) = .ok b (s.setFlag c f b) := by
  rw [readFlag_of_ps setFlag_ps, valueBit_setBit, if_pos rfl]

theorem SameRegsExcept.setFlag (h : SameRegsExcept rs s t) (hps : .ps ∈ rs) :
    SameRegsExcept rs s (t.setFlag c f b) :=
  h.setReg hps

/-! ### recalcFromAccumulator -/

/-- PS after `recalcFromAccumulator` where PS held `x` and AC the value `a` (R115). -/
def recalcPs (c : Config) (x : Word) (a : Value) : Value :=
  setValueBit (setBit c x Flag.zero.bit (valueIsZero a)) Flag.sign.bit (valueSign c a)

/-- Where AC holds a value, `recalcFromAccumulator` succeeds and changes PS alone (R115). -/
theorem exists_recalc_ok (h : s.regs.ac = some a) : ∃ t, recalcFromAccumulator c s = .ok () t ∧
    t.regs.ps = some (recalcPs c s.regs.ps a) ∧ SameRegsExcept [.ps] s t ∧ t.mem = s.mem ∧ SameControl s t :=
  ⟨_, recalc_ok h, rfl, (SameRegsExcept.refl.setFlag (by simp)).setFlag (by simp), rfl, rfl, rfl⟩

/-- `N` is the sign of AC, `Z` its zero test, and every other bit is kept (R115). -/
theorem valueBit_recalcPs (x : Word) (k : BitIndex) : valueBit (recalcPs c x a) k =
    if k = 3 then valueSign c a else if k = 2 then valueIsZero a else valueBit (x.getD 0#16) k := by
  rw [recalcPs, valueBit_setValueBit, valueBit_setBit]
  rfl

/-- No value is both zero and negative (R115). -/
theorem not_valueIsZero_and_valueSign : ¬ (valueIsZero a = true ∧ valueSign c a = true) := by
  rintro ⟨hzero, hsign⟩
  obtain rfl : a = 0#16 := of_decide_eq_true hzero
  rw [valueSign, valueBit_zero] at hsign
  cases hsign

end

/-- Settles O49: a flag write is a bit write to PS, whose old value is 0 where PS was never written. -/
theorem flagWriteChangesOneBit : Obligations.FlagWriteChangesOneBit := by
  intro c s f b
  refine ⟨_, setFlag_ps, readFlag_setFlag, fun k hk => ?_, ?_, SameRegsExcept.refl.setFlag (by simp), fun _ => rfl,
    rfl, rfl⟩
  · rw [valueBit_setBit, if_neg hk]
  · rw [setBit_eq_setValueBit]
    exact setValueBit_xor _ f.bit b

/-- Settles O50: two flag writes, of what the Word operations find in AC. -/
theorem recalcSetsZeroAndSignOnly : Obligations.RecalcSetsZeroAndSignOnly := by
  refine fun s => ⟨recalc_none, fun a hac => ?_⟩
  obtain ⟨t, hok, hps, hregs, hmem, hcontrol⟩ := exists_recalc_ok (c := config) hac
  have hbit := valueBit_recalcPs (c := config) (a := a) s.regs.ps
  have hZ : valueBit (recalcPs config s.regs.ps a) 2 = valueIsZero a := hbit 2
  have hN : valueBit (recalcPs config s.regs.ps a) 3 = valueSign config a := hbit 3
  refine ⟨t, _, hok, hps, ?_, hN, ?_, fun k h2 h3 => ?_, hregs, fun b => congrArg (Memory.read · b) hmem, hcontrol⟩
  · rw [hZ, valueIsZero_eq, decide_eq_true_iff]
  · rw [hZ, hN]
    exact not_valueIsZero_and_valueSign
  · rw [hbit, if_neg h3, if_neg h2]

/-- Settles O47: a register write touches its slot alone, and a read gives what the slot holds. -/
theorem registerReadsGiveTheLastWrite : Obligations.RegisterReadsGiveTheLastWrite := fun s r v =>
  ⟨readReg_some (RegFile.get_set_self s.regs r v), SameRegsExcept.refl.setReg (by simp), fun _ => rfl, ⟨rfl, rfl⟩,
    readReg_none, readReg_some⟩

/-- Settles O48: both views read the one value that PS holds. -/
theorem psIsOneRegisterUnderBothViews : Obligations.PsIsOneRegisterUnderBothViews := fun _ v f b =>
  ⟨readFlag_of_ps rfl, setValueBit v f.bit b, readReg_some rfl, fun k => valueBit_setValueBit v f.bit k b⟩

end Sys2Proof.Machine

/-! PROOFS. The engine: a step by the end of its fetch and `parse`, and what fetch, operand fetch and `parse` write. -/

namespace Sys2Proof.Machine

section

variable {c : Config} {U : InstructionUnit} {s t u : State} {kind : RunKind} {a w v : Value} {e : Error} {ι : Type} {i : ι}
  {select : Value → Except IsetError (Selection ι)} {exec : ι → State → Host.Outcome State Fault Refusal}

/-! ### The step by the end of its fetch and `parse` -/

/-- A step whose `parse` gives an instruction runs it with the trace event emitted (R132, R146). -/
theorem stepBy_of_parsed (hs : s.phase = .running kind) (hfp : fetchParse c select s = .ok (a, w, i) u) :
    stepBy c select exec s = exec i (u.emit kind a w) := by
  simp [stepBy, hs, hfp]

/-- A step whose fetch or `parse` raises an error aborts there (R138). -/
theorem stepBy_of_error (hs : s.phase = .running kind) (hfp : fetchParse c select s = .error e u) :
    stepBy c select exec s = .next (u.abort e) := by
  simp [stepBy, hs, hfp]

theorem engineStep_of_parsed {i : U.Instruction} (hs : s.phase = .running kind)
    (hfp : fetchParse c U.select s = .ok (a, w, i) u) :
    engineStep c U s = complete c ((U.execute i).run c (u.emit kind a w)) :=
  stepBy_of_parsed hs hfp

theorem engineStep_of_error (hs : s.phase = .running kind) (hfp : fetchParse c U.select s = .error e u) :
    engineStep c U s = .next (u.abort e) :=
  stepBy_of_error hs hfp

/-- Outside a run the phase alone decides how the step stops (R30, R132). -/
theorem engineStep_outside_run (h : ∀ kind, s.phase ≠ .running kind) :
    ∃ r, ∀ t : State, t.phase = s.phase → engineStep c U t = .fault r := by
  cases hs : s.phase with
  | running kind => exact absurd hs (h kind)
  | idle => exact ⟨.engineIdle, fun t ht => by simp only [engineStep, stepBy, ht]⟩
  | halted => exact ⟨.runHalted, fun t ht => by simp only [engineStep, stepBy, ht]⟩
  | faulted e => exact ⟨.runFaulted e, fun t ht => by simp only [engineStep, stepBy, ht]⟩

/-- After `Continue` with PS written, bit 7 of PS decides (R137). -/
theorem complete_continues_of_ps (h : s.regs.ps = some v) :
    complete c (.ok .continues s) = if valueBit v 7 then .next s else .refused .runFlagCleared := by
  have hbit : valueBit v Flag.running.bit = valueBit v 7 := rfl
  cases hb : valueBit v 7 <;> simp [complete, readFlag_of_ps h, hbit, hb]

/-- After `Continue` with PS never written, the test of `RUN` is the read that fails (R98, R137). -/
theorem complete_continues_of_no_ps (h : s.regs.ps = none) :
    complete c (.ok .continues s) = .next (s.abort (.uninitializedRead (.reg .ps))) := by
  simp [complete, readFlag, readBit_none (r := .ps) _ h]

/-! ### The phase and the stream -/

theorem stable_control : Stable c (SameControl s) := ⟨fun _ _ _ h => h, fun _ _ _ _ h => h⟩

theorem parse_control {x : Result ι} (h : parse c select w s = x) : SameControl s x.state :=
  h ▸ parse_stable stable_control ⟨rfl, rfl⟩

theorem fetchParse_control {x : Result (Value × Value × ι)} (h : fetchParse c select s = x) : SameControl s x.state :=
  h ▸ fetchParse_stable stable_control ⟨rfl, rfl⟩

theorem Routine.run_control (q : Routine) : SameControl s (q.run c s).state :=
  q.run_stable stable_control s ⟨rfl, rfl⟩

/-! ### Operand fetch and `parse` -/

/-- The state after an operand fetch at `a` that read `v` (R143). -/
def operandFetched (c : Config) (s : State) (a v : Value) : State :=
  ((s.setReg .ar a).setReg .dr v).setReg .ip (advance c a)

theorem operandFetched_frame : SameRegsExcept [.ar, .dr, .ip] s (operandFetched c s a v) :=
  ((SameRegsExcept.refl.setReg (by simp)).setReg (by simp)).setReg (by simp)

/-- The operand fetch outside memory: AR is written, IP is not advanced (R143). -/
theorem fetchOperand_range (hip : s.regs.ip = some a) (ha : c.memSize ≤ a.toNat) :
    fetchOperand c s = .error (.addressOutOfRange a.toNat) (s.setReg .ar a) := by
  simp [fetchOperand, readReg_some (r := .ip) hip, memRead_range ha]

/-- The operand fetch of a never-written cell (R143). -/
theorem fetchOperand_uninit (hip : s.regs.ip = some a) (ha : a.toNat < c.memSize) (hv : s.mem.read a.toNat = none) :
    fetchOperand c s = .error (.uninitializedRead (.cell a.toNat)) (s.setReg .ar a) := by
  simp [fetchOperand, readReg_some (r := .ip) hip, memRead_uninit ha hv]

/-- An operand fetch that succeeds advances IP by one (R143). -/
theorem fetchOperand_ip (hip : s.regs.ip = some a) (h : fetchOperand c s = .ok v t) :
    t.regs.ip = some (advance c a) := by
  simp only [fetchOperand, readReg_some (r := .ip) hip, Result.bind_ok, Result.bind_eq_ok] at h
  obtain ⟨x, u, -, h⟩ := h
  cases h
  rfl

/-- Operand fetches that succeed advance IP past each operand word (R140, R143). -/
theorem fetchOperands_ip : ∀ {n : Nat} {k : Operands ι n} {s : State} {a : Value}, s.regs.ip = some a →
    fetchOperands c n k s = .ok i t → t.regs.ip = some ((advance c)^[n] a)
  | 0, _, _, _, hip, h => by
    cases h
    exact hip
  | n + 1, k, _, _, hip, h => by
    obtain ⟨v, u, hv, h⟩ := Result.bind_eq_ok.mp h
    cases hk : k v with
    | error e => simp [hk] at h
    | ok k' =>
      rw [hk] at h
      exact fetchOperands_ip (n := n) (fetchOperand_ip hip hv) h

/-- `parse` that gives an instruction has advanced IP past the operand words that the opcode word selects (R140). -/
theorem parse_ip (hip : s.regs.ip = some a) (h : parse c select w s = .ok i t) :
    ∃ sel, select w = .ok sel ∧ t.regs.ip = some ((advance c)^[sel.operands] a) := by
  unfold parse at h
  split at h
  · cases h
  · exact ⟨_, ‹_›, fetchOperands_ip hip h⟩

theorem parse_operand_ok {k : Operands ι 1} (hs : select w = .ok ⟨1, k⟩) (hip : s.regs.ip = some a)
    (ha : a.toNat < c.memSize) (hv : s.mem.read a.toNat = some v) (hk : k v = .ok i) :
    parse c select w s = .ok i (operandFetched c s a v) := by
  simp [parse, hs, fetchOperands, fetchOperand_ok hip ha hv, hk, operandFetched]

theorem parse_operand_error {k : Operands ι 1} {e : IsetError} (hs : select w = .ok ⟨1, k⟩) (hip : s.regs.ip = some a)
    (ha : a.toNat < c.memSize) (hv : s.mem.read a.toNat = some v) (hk : k v = .error e) :
    parse c select w s = .error (.isetError e) (operandFetched c s a v) := by
  simp [parse, hs, fetchOperands, fetchOperand_ok hip ha hv, hk, operandFetched]

theorem fetchParse_of_parse_ok (hf : fetch c s = .ok (a, w) u) (hp : parse c select w u = .ok i t) :
    fetchParse c select s = .ok (a, w, i) t := by
  simp [fetchParse, hf, hp]

theorem fetchParse_of_parse_error (hf : fetch c s = .ok (a, w) u) (hp : parse c select w u = .error e t) :
    fetchParse c select s = .error e t := by
  simp [fetchParse, hf, hp]

theorem fetchParse_of_fetch_error (hf : fetch c s = .error e t) : fetchParse c select s = .error e t := by
  simp [fetchParse, hf]

/-- BR and AR, which a fetch that fails has written (R133). -/
theorem fetch_error_frame : SameRegsExcept [.br, .ar] s ((s.setReg .br a).setReg .ar a) :=
  (SameRegsExcept.refl.setReg (by simp)).setReg (by simp)

end

/-- Settles O13: the fetch writes BR and CR, and `parse` never touches them. -/
theorem parseOnlyFetchesOperands : Obligations.ParseOnlyFetchesOperands := by
  intro c U s t
  refine ⟨?_, fun a w i h => ?_, fun e h => ?_⟩
  · rintro w rfl
    obtain ⟨hregs, hmem⟩ := parse_frame rfl
    exact ⟨hregs, hmem, parse_control rfl⟩
  · obtain ⟨hf, hp⟩ := fetchParse_eq_ok h
    obtain ⟨hip, ha, hw, -⟩ := fetch_eq_ok hf
    obtain ⟨sel, hsel, hip'⟩ := parse_ip (a := advance c a) rfl hp
    obtain ⟨hkeep, -⟩ := parse_frame hp
    obtain ⟨hregs, hmem⟩ := fetchParse_frame h
    exact ⟨hip, ha, hw, sel, hsel, hkeep .br (by simp), hkeep .cr (by simp), hip', hregs, hmem, fetchParse_control h⟩
  · obtain ⟨hregs, hmem⟩ := fetchParse_frame h
    refine ⟨hregs, hmem, fetchParse_control h, fun a w u hf => ?_⟩
    obtain hf' | ⟨a', w', hf', hp⟩ := fetchParse_eq_error h <;> rw [hf] at hf' <;> cases hf'
    obtain ⟨hkeep, -⟩ := parse_frame hp
    exact ⟨hkeep .br (by simp), hkeep .cr (by simp)⟩

/-- Settles O10: a word that decodes alone selects an instruction without operand words, two words that decode together one with a
single operand word. -/
theorem stepRunsTheDecodedInstruction : Obligations.StepRunsTheDecodedInstruction := by
  intro s kind a w i hs hip ha hw
  have hadv (b : Value) : advance config b = b + 1#16 :=
    ((ipAdvanceWrapsAtTheModulus config b (by decide)).1 rfl).1
  have hf : fetch config s = .ok (a, w) (fetched config s a w) := fetch_ok hip ha hw
  refine ⟨fun hdec => ?_, fun v hdec ha' hv => ?_⟩
  · have hp : parse config select w (fetched config s a w) = .ok i (fetched config s a w) := by
      simp [parse, select_of_decode_one hdec, fetchOperands]
    exact ⟨_, stepBy_of_parsed hs (fetchParse_of_parse_ok hf hp), rfl, rfl, rfl, rfl, congrArg some (hadv a),
      fun r hr => fetched_frame r (by simp_all), rfl, rfl, rfl⟩
  · obtain ⟨k, hsel, hk⟩ := select_of_decode_two hdec
    have hnext : (a + 1#16).toNat = a.toNat + 1 := by
      simp only [BitVec.toNat_add, BitVec.toNat_ofNat]
      omega
    have hp := parse_operand_ok (c := config) (s := fetched config s a w) (a := a + 1#16) hsel
      (congrArg some (hadv a)) (by rwa [hnext]) (by rw [hnext]; exact hv) hk
    refine ⟨_, stepBy_of_parsed hs (fetchParse_of_parse_ok hf hp), rfl, rfl, rfl, rfl, congrArg some ?_,
      (fetched_frame.trans (operandFetched_frame.mono (by simp))).mono (by simp), rfl, rfl, rfl⟩
    rw [hadv, BitVec.add_assoc]
    rfl

/-- Settles O11, by the ends of the fetch. -/
theorem fetchWritesBrArDrCrIp : Obligations.FetchWritesBrArDrCrIp := fun _ _ =>
  ⟨fetch_noIp, fun _ hip =>
    ⟨fun _ ha hw => ⟨_, fetch_ok hip ha hw, rfl, rfl, rfl, rfl, rfl, fetched_frame, rfl, rfl, rfl⟩,
      fun ha hw => ⟨_, fetch_uninit hip ha hw, rfl, rfl, fetch_error_frame, rfl, rfl, rfl⟩,
      fun ha => ⟨_, fetch_range hip ha, rfl, rfl, fetch_error_frame, rfl, rfl, rfl⟩⟩⟩

/-- Settles O12, by the ends of the operand fetch. -/
theorem operandFetchKeepsBrAndCr : Obligations.OperandFetchKeepsBrAndCr := fun _ s a hip =>
  have hframe : SameRegsExcept [.ar] s (s.setReg .ar a) := SameRegsExcept.refl.setReg (by simp)
  ⟨fun _ ha hv => ⟨_, fetchOperand_ok hip ha hv, rfl, rfl, rfl, operandFetched_frame, rfl, rfl, rfl⟩,
    fun ha hv => ⟨_, fetchOperand_uninit hip ha hv, rfl, hframe, rfl, rfl, rfl⟩,
    fun ha => ⟨_, fetchOperand_range hip ha, rfl, hframe, rfl, rfl, rfl⟩⟩

/-- Settles O14: the step aborts from the state the operand fetch left. -/
theorem parseMayRaiseAfterAnOperandFetch : Obligations.ParseMayRaiseAfterAnOperandFetch := by
  intro c U s kind a w v k e hs hip ha hw ha' hv hsel hk
  have hp := parse_operand_error (s := fetched c s a w) hsel rfl ha' hv hk
  have hfp := fetchParse_of_parse_error (fetch_ok hip ha hw) hp
  exact ⟨_, engineStep_of_error hs hfp, rfl, rfl, rfl, rfl, rfl, rfl,
    fetched_frame.trans (operandFetched_frame.mono (by simp)), rfl, rfl⟩

/-- Settles O19: the halt is the bit write to PS and the phase. -/
theorem haltClearsRunAndEndsTheRun : Obligations.HaltClearsRunAndEndsTheRun := by
  intro c U s u v kind a w i hs hfp hrun
  have hstep : engineStep c U s = .next (v.halt c) := by rw [engineStep_of_parsed hs hfp, hrun]; rfl
  refine ⟨_, setBit c v.regs.ps 7 false, hstep, rfl, rfl, ?_, fun k hk => ?_, SameRegsExcept.refl.setReg (by simp), rfl, rfl⟩
  · rw [valueBit_setBit, if_pos rfl]
  · rw [valueBit_setBit, if_neg hk]

/-- Settles O20: the test made after `Continue`. -/
theorem continueWithRunClearedIsRefused : Obligations.ContinueWithRunClearedIsRefused := by
  intro c U s u v kind a w p i hs hfp hrun hps
  rw [engineStep_of_parsed hs hfp, hrun, complete_continues_of_ps hps]
  exact ⟨fun hb => if_pos hb, fun hb => if_neg (by simp [hb])⟩

/-- Settles O21: an abort writes the phase alone, from the state at the raise. -/
theorem errorsAbortWithoutRollback : Obligations.ErrorsAbortWithoutRollback := by
  intro c U s kind hs
  refine ⟨fun e u hfp => ⟨_, engineStep_of_error hs hfp, rfl, rfl, rfl, rfl⟩, fun a w i u e v hfp hrun => ?_⟩
  have hstep : engineStep c U s = .next (v.abort e) := by rw [engineStep_of_parsed hs hfp, hrun]; rfl
  exact ⟨_, hstep, rfl, rfl, rfl, rfl⟩

/-! ### The trace event -/

theorem Ended.trace_eq {c : Config} {u t : State} (h : Ended c u t) : t.trace = u.trace := by
  cases h <;> rfl

/-- The stream after a step whose `parse` gave an instruction is that with which it began to run (R146). -/
theorem engineStep_trace_of_parsed {c : Config} {U : InstructionUnit} {s t u : State} {kind : RunKind} {a w : Value}
    {i : U.Instruction} (hs : s.phase = .running kind) (hfp : fetchParse c U.select s = .ok (a, w, i) u)
    (h : engineStep c U s = .next t) : t.trace = (u.emit kind a w).trace := by
  rw [engineStep_of_parsed hs hfp] at h
  obtain ⟨-, htrace⟩ := Routine.run_control (c := c) (s := u.emit kind a w) (U.execute i)
  exact (complete_next h).trace_eq.trans htrace

theorem engineStep_trace_of_error {c : Config} {U : InstructionUnit} {s t u : State} {kind : RunKind} {e : Error}
    (hs : s.phase = .running kind) (hfp : fetchParse c U.select s = .error e u) (h : engineStep c U s = .next t) :
    t.trace = s.trace := by
  rw [engineStep_of_error hs hfp] at h
  cases h
  obtain ⟨-, htrace⟩ := fetchParse_control hfp
  exact htrace

/-- Settles O28: `parse` and `execute` leave the stream alone, and so does each end of a step. -/
theorem oneTraceEventPerExecutedInstruction : Obligations.OneTraceEventPerExecutedInstruction := by
  intro c U s t h
  refine ⟨fun hs => ?_, fun hs => ⟨fun a w i u hfp => ?_, fun e u hfp => engineStep_trace_of_error hs hfp h⟩⟩
  · cases hfp : fetchParse c U.select s with
    | error e u => exact engineStep_trace_of_error hs hfp h
    | ok q u =>
      obtain ⟨a, w, i⟩ := q
      exact (engineStep_trace_of_parsed hs hfp h).trans (fetchParse_control hfp).2
  · obtain ⟨hip, -, hw, -⟩ := fetch_eq_ok (fetchParse_eq_ok hfp).1
    obtain ⟨-, htrace⟩ := fetchParse_control hfp
    exact ⟨hip, hw, (engineStep_trace_of_parsed hs hfp h).trans (congrArg (· ++ _) htrace)⟩

end Sys2Proof.Machine

/-! PROOFS. Tracing observes and does not act: every operation commutes with a change of the phase and the stream, which no
operation reads (R141, R142). -/

namespace Sys2Proof.Machine

/-- `s` with another phase and another trace stream. -/
def State.withControl (p : Phase) (l : List TraceEvent) (s : State) : State := { s with phase := p, trace := l }

/-- The same result, in a state with another phase and another trace stream. -/
def Result.withControl {α : Type} (p : Phase) (l : List TraceEvent) : Result α → Result α
  | .ok x s => .ok x (s.withControl p l)
  | .error e s => .error e (s.withControl p l)

section

variable {c : Config} {s t : State} {p : Phase} {l : List TraceEvent} {r : Reg} {a v w : Value} {k : BitIndex} {ι α β : Type}

@[simp] theorem State.withControl_regs : (s.withControl p l).regs = s.regs := rfl
@[simp] theorem State.withControl_mem : (s.withControl p l).mem = s.mem := rfl
@[simp] theorem State.withControl_setReg : (s.withControl p l).setReg r v = (s.setReg r v).withControl p l := rfl

/-- Two states that differ at most in the stream and the run kind, as one state with two phases and streams. -/
theorem SameButStream.eq_withControl (h : SameButStream s t) : t = s.withControl t.phase t.trace := by
  obtain ⟨hregs, hmem, -⟩ := h
  simp only [State.withControl, ← hregs, ← hmem]

theorem SameButStream.forgetKind_eq : SameButStream s t → t.phase.forgetKind = s.phase.forgetKind :=
  fun ⟨_, _, hphase⟩ => hphase

theorem SameButStream.withControl (h : p.forgetKind = s.phase.forgetKind) : SameButStream s (s.withControl p l) :=
  ⟨rfl, rfl, h⟩

@[simp] theorem Result.ok_withControl (x : α) : (Result.ok x s).withControl p l = .ok x (s.withControl p l) := rfl

@[simp] theorem Result.error_withControl (e : Error) :
    (Result.error e s : Result α).withControl p l = .error e (s.withControl p l) := rfl

/-- A sequence commutes with the change if both its parts do. -/
theorem Result.bind_withControl {x y : Result α} {f : α → State → Result β} (hx : y = x.withControl p l)
    (hf : ∀ z u, f z (u.withControl p l) = (f z u).withControl p l) : y.bind f = (x.bind f).withControl p l := by
  subst hx
  cases x with
  | ok z u => exact hf z u
  | error e u => rfl

/-! ### No operation reads the phase or the stream -/

@[simp] theorem readReg_withControl : readReg r (s.withControl p l) = (readReg r s).withControl p l := by
  cases h : s.regs.get r <;> simp [readReg, h]

@[simp] theorem readBit_withControl : readBit c r k (s.withControl p l) = (readBit c r k s).withControl p l := by
  cases h : s.regs.get r <;> simp [readBit, h]

@[simp] theorem memRead_withControl : memRead c a (s.withControl p l) = (memRead c a s).withControl p l := by
  rcases Nat.lt_or_ge a.toNat c.memSize with ha | ha
  · cases hv : s.mem.read a.toNat with
    | none => simp [memRead_uninit, ha, hv]
    | some v => simp [memRead_ok ha, hv]
  · simp [memRead_range ha]

@[simp] theorem memWrite_withControl : memWrite c a v (s.withControl p l) = (memWrite c a v s).withControl p l := by
  rcases Nat.lt_or_ge a.toNat c.memSize with ha | ha
  · rw [memWrite_ok ha, memWrite_ok ha]
    rfl
  · rw [memWrite_range ha, memWrite_range ha]
    rfl

theorem recalc_withControl :
    recalcFromAccumulator c (s.withControl p l) = (recalcFromAccumulator c s).withControl p l :=
  Result.bind_withControl readReg_withControl fun _ _ => rfl

theorem fetch_withControl : fetch c (s.withControl p l) = (fetch c s).withControl p l :=
  Result.bind_withControl readReg_withControl fun a u =>
    Result.bind_withControl (memRead_withControl (s := u.setReg .br a)) fun _ _ => rfl

theorem fetchOperand_withControl : fetchOperand c (s.withControl p l) = (fetchOperand c s).withControl p l :=
  Result.bind_withControl readReg_withControl fun _ _ => Result.bind_withControl memRead_withControl fun _ _ => rfl

theorem fetchOperands_withControl : ∀ (n : Nat) (k : Operands ι n) (s : State),
    fetchOperands c n k (s.withControl p l) = (fetchOperands c n k s).withControl p l
  | 0, _, _ => rfl
  | n + 1, k, s => Result.bind_withControl fetchOperand_withControl fun v u => by
    cases k v with
    | error e => rfl
    | ok k' => exact fetchOperands_withControl n k' u

theorem parse_withControl {select : Value → Except IsetError (Selection ι)} :
    parse c select w (s.withControl p l) = (parse c select w s).withControl p l := by
  unfold parse
  split
  · rfl
  · exact fetchOperands_withControl ..

theorem fetchParse_withControl {select : Value → Except IsetError (Selection ι)} :
    fetchParse c select (s.withControl p l) = (fetchParse c select s).withControl p l :=
  Result.bind_withControl fetch_withControl fun _ _ => Result.bind_withControl parse_withControl fun _ _ => rfl

/-- No instruction's `execute` can tell the run kind or the stream: they are not in the handle (R142). -/
theorem Routine.run_withControl (q : Routine) : ∀ s, q.run c (s.withControl p l) = (q.run c s).withControl p l := by
  induction q with
  | done sig => exact fun _ => rfl
  | raise e => exact fun _ => rfl
  | readReg r next ih => exact fun s => Result.bind_withControl readReg_withControl ih
  | writeReg r v next ih => exact fun s => ih (s.setReg r v)
  | readBit r i next ih => exact fun s => Result.bind_withControl readBit_withControl ih
  | writeBit r i b next ih => exact fun s => ih (s.setRegBit c r i b)
  | recalc next ih => exact fun s => Result.bind_withControl recalc_withControl fun _ => ih
  | busRead a next ih => exact fun s => Result.bind_withControl memRead_withControl ih
  | busWrite a v next ih => exact fun s => Result.bind_withControl memWrite_withControl fun _ => ih

/-! ### The step -/

/-- The outcome handling keeps the phase of a run that goes on, and sets that of one that ends (R136 to R138). -/
theorem complete_withControl {x : Result Signal} (hp : p.forgetKind = x.state.phase.forgetKind) :
    OutcomesAgree SameButStream (complete c x) (complete c (x.withControl p l)) := by
  cases x with
  | error e u => exact ⟨rfl, rfl, rfl⟩
  | ok sig u =>
    cases sig with
    | halt => exact ⟨rfl, rfl, rfl⟩
    | continues =>
      rw [Result.ok_withControl]
      cases hps : u.regs.ps with
      | none =>
        rw [complete_continues_of_no_ps hps, complete_continues_of_no_ps (s := u.withControl p l) hps]
        exact ⟨rfl, rfl, rfl⟩
      | some v =>
        rw [complete_continues_of_ps hps, complete_continues_of_ps (s := u.withControl p l) hps]
        cases valueBit v 7 with
        | true => exact SameButStream.withControl hp
        | false => exact rfl

/-- The trace event is a change of the stream (R146). -/
theorem emit_withControl (kind kind' : RunKind) :
    ∃ l', (s.withControl p l).emit kind' a w = (s.emit kind a w).withControl p l' := by
  cases kind <;> cases kind' <;> exact ⟨_, rfl⟩

theorem forgetKind_cases {p' : Phase} (h : p'.forgetKind = p.forgetKind) :
    (∃ kind kind', p = .running kind ∧ p' = .running kind') ∨ (p' = p ∧ ∀ kind, p ≠ .running kind) := by
  cases p with
  | running kind =>
    cases p' with
    | running kind' => exact .inl ⟨kind, kind', rfl, rfl⟩
    | idle | halted | faulted => cases h
  | idle | halted | faulted => cases p' <;> cases h; exact .inr ⟨rfl, nofun⟩

end

/-- Settles O27: outside a run the phase alone decides; in a run the two steps fetch, parse and execute alike, and each end of a
step sets the phase or leaves it. -/
theorem tracingObservesAndDoesNotAct : Obligations.TracingObservesAndDoesNotAct := by
  intro c U s t h
  obtain ⟨kind, kind', hs, ht⟩ | ⟨hst, hs⟩ := forgetKind_cases h.forgetKind_eq
  · rw [h.eq_withControl, ht]
    generalize t.trace = l
    have ht' : (s.withControl (.running kind') l).phase = .running kind' := rfl
    have hfp' := fetchParse_withControl (c := c) (s := s) (p := .running kind') (l := l) (select := U.select)
    cases hfp : fetchParse c U.select s with
    | error e u =>
      rw [hfp] at hfp'
      rw [engineStep_of_error hs hfp, engineStep_of_error ht' hfp']
      exact ⟨rfl, rfl, rfl⟩
    | ok q u =>
      obtain ⟨a, w, i⟩ := q
      rw [hfp] at hfp'
      obtain ⟨l', hemit⟩ := emit_withControl (s := u) (p := .running kind') (l := l) (a := a) (w := w) kind kind'
      obtain ⟨hfetched, -⟩ := fetchParse_control hfp
      obtain ⟨hran, -⟩ := Routine.run_control (c := c) (s := u.emit kind a w) (U.execute i)
      rw [engineStep_of_parsed hs hfp, engineStep_of_parsed ht' hfp', hemit, Routine.run_withControl]
      have hphase : (Routine.run c (U.execute i) (u.emit kind a w)).state.phase = .running kind :=
        (hran.trans (u.emit_phase kind a w)).trans (hfetched.trans hs)
      exact complete_withControl (hphase ▸ rfl)
  · obtain ⟨r, hr⟩ := engineStep_outside_run (c := c) (U := U) hs
    rw [hr s rfl, hr t hst]
    exact rfl

end Sys2Proof.Machine

/-! PROOFS. Runs: where an executor stops (R139, R148), the start of a run (R131), and the host beside a run (R160, R168). -/

namespace Sys2Proof.Machine

section

variable {c : Config} {U : InstructionUnit} {s : State} {i j : Instance U} {n : Nat} {kind : RunKind} {a w : Value}
  {P : State → Prop}

/-! ### Where an executor stops -/

theorem report_eq_returned (h : i.report = .returned j) : j = i ∧ i.state.phase = .halted := by
  unfold Instance.report at h
  split at h <;> cases h
  exact ⟨rfl, ‹_›⟩

theorem report_eq_failed {e : Error} (h : i.report = .failed e j) : j = i ∧ i.state.phase = .faulted e := by
  unfold Instance.report at h
  split at h <;> cases h
  exact ⟨rfl, ‹_›⟩

theorem report_eq_unfinished (h : i.report = .unfinished j) :
    j = i ∧ (i.state.phase = .idle ∨ ∃ kind, i.state.phase = .running kind) := by
  unfold Instance.report at h
  split at h <;> cases h
  · exact ⟨rfl, .inl ‹_›⟩
  · exact ⟨rfl, .inr ⟨_, ‹_›⟩⟩

theorem report_of_running (h : i.state.phase = .running kind) : i.report = .unfinished i := by
  simp [Instance.report, h]

/-- Outside a run the executor reports at once, whatever the fuel (R148). -/
theorem drive_outside_run (h : ∀ kind, i.state.phase ≠ .running kind) : drive c n i = i.report := by
  obtain ⟨r, hr⟩ := engineStep_outside_run (c := c) (U := U) h
  cases n with
  | zero => rfl
  | succ n => simp [drive, hr i.state rfl]

/-- What every step keeps holds where an executor stops and reports, unless the run is refused. -/
theorem drive_report (hP : ∀ s t, P s → engineStep c U s = .next t → P t) : ∀ {n : Nat} {i : Instance U}, P i.state →
    (∃ r, drive c n i = .refused r) ∨ ∃ j : Instance U, P j.state ∧ drive c n i = j.report
  | 0, i, h => .inr ⟨i, h, rfl⟩
  | n + 1, i, h => by
    simp only [drive]
    cases hstep : engineStep c U i.state with
    | next t => exact drive_report hP (hP _ _ h hstep)
    | fault r => exact .inr ⟨i, h, rfl⟩
    | refused r => exact .inl ⟨r, rfl⟩

/-- Where a step from `P` always leads on to `P`, an executor ends in `P`, out of fuel. -/
theorem drive_of_progress (hP : ∀ s, P s → ∃ t, engineStep c U s = .next t ∧ P t) : ∀ (n : Nat) {s : State}, P s →
    ∃ t, P t ∧ drive (U := U) c n ⟨s⟩ = Instance.report ⟨t⟩
  | 0, s, h => ⟨s, h, rfl⟩
  | n + 1, s, h => by
    obtain ⟨t, hstep, ht⟩ := hP s h
    simpa only [drive, hstep] using drive_of_progress hP n ht

/-- More fuel changes nothing once a run has ended (R139). -/
theorem drive_add {k : Nat} : ∀ {n : Nat} {i : Instance U}, (∀ j, drive c n i ≠ .unfinished j) →
    drive c (n + k) i = drive c n i
  | 0, i, h => drive_outside_run fun kind hkind => h i (report_of_running hkind)
  | n + 1, i, h => by
    rw [Nat.succ_add]
    simp only [drive] at h ⊢
    cases hstep : engineStep c U i.state with
    | next t => exact drive_add (by simpa only [hstep] using h)
    | fault r => rfl
    | refused r => rfl

/-! ### The invariant at the end of a run -/

/-- In `halted` the registers that the engine maintains are initialised (R166). -/
theorem State.Inv.of_halted (h : State.Inv c s) (hs : s.phase = .halted) :
    s.runFlag = false ∧ ∀ r ∈ [Reg.br, .ar, .dr, .cr, .ip, .ps], (s.regs.get r).isSome = true := by
  obtain ⟨-, h⟩ := h
  simp only [hs] at h
  obtain ⟨hps, hrun, hip, hbr, har, hdr, hcr⟩ := h
  exact ⟨hrun, by simp [RegFile.get, hps, hip, hbr, har, hdr, hcr]⟩

theorem State.Inv.runFlag_of_running (h : State.Inv c s) (hs : s.phase = .running kind) : s.runFlag = true := by
  obtain ⟨-, h⟩ := h
  simp only [hs] at h
  exact h.1

/-- A run of kind `kind` or its end: what every step of such a run keeps (R30, R31). -/
def InRun (c : Config) (kind : RunKind) (s : State) : Prop :=
  State.Inv c s ∧ (s.phase = .running kind ∨ s.phase = .halted ∨ ∃ e, s.phase = .faulted e)

theorem engineStep_keeps_inRun (s t : State) (h : InRun c kind s) (hstep : engineStep c U s = .next t) :
    InRun c kind t := by
  obtain ⟨hinv, hphase⟩ := h
  obtain ⟨kind', hs, ht⟩ := phaseMovesOnlyForward c U s t hstep
  have hkind : kind' = kind := by simpa [hs] using hphase
  exact ⟨engineStep_keeps_inv hinv hstep, hkind ▸ ht⟩

/-! ### A jump to itself -/

/-- In a run of kind `kind` at `a`, with `RUN` = 1 and memory `m`. -/
def RunningAt (m : Memory) (kind : RunKind) (a : Value) (s : State) : Prop :=
  s.phase = .running kind ∧ s.runFlag = true ∧ s.regs.ip = some a ∧ s.mem = m

theorem select_jmp (h : opcodeOf w = 0x05#8) : select w = .ok ⟨1, fun t => .ok (.jmp t)⟩ := by
  simp [select, h]

theorem runFlag_congr {s t : State} (h : t.regs.ps = s.regs.ps) : t.runFlag = s.runFlag := by
  simp [State.runFlag, h]

theorem exec_jmp (h : s.runFlag = true) : exec (.jmp a) s = .next (s.setReg .ip a) := by
  rw [exec_eq_complete]
  exact complete_continue h

/-- Where memory holds the words of a `JMP` to `a` at `a`, the step fetches both and writes `a` back to IP (R186). -/
theorem engineStep_selfJump {m : Memory} (ha : a.toNat + 1 < 2048) (hw : m.read a.toNat = some w)
    (hop : opcodeOf w = 0x05#8) (hv : m.read (a.toNat + 1) = some a) (h : RunningAt m kind a s) :
    ∃ t, engineStep config unitT0 s = .next t ∧ RunningAt m kind a t := by
  obtain ⟨hs, hrun, hip, rfl⟩ := h
  obtain ⟨-, htwo⟩ := stepRunsTheDecodedInstruction s kind a w (.jmp a) hs hip (by omega) hw
  obtain ⟨u, hstep, -, -, -, -, -, hregs, hmem, hphase, -⟩ := htwo a (decode_oneOperand a [] (select_jmp hop)) ha hv
  have hrun' : (u.emit kind a w).runFlag = true :=
    (runFlag_congr ((congrArg RegFile.ps (u.emit_regs kind a w)).trans (hregs .ps (by simp)))).trans hrun
  rw [exec_jmp hrun', step_eq_engineStep] at hstep
  exact ⟨_, hstep, by simp [hphase, hs], hrun', rfl, by simp [hmem]⟩

end

/-- Settles O40: every step keeps the invariant, so it holds where the executor stops. -/
theorem returnedRunsAreHalted : Obligations.ReturnedRunsAreHalted := by
  intro c U n i j hinv
  obtain ⟨r, hr⟩ | ⟨i', hinv', hr⟩ := drive_report (n := n) (fun _ _ => engineStep_keeps_inv (c := c) (U := U)) hinv <;>
    rw [hr]
  · exact ⟨nofun, nofun⟩
  · refine ⟨fun h => ?_, fun e h => ?_⟩
    · obtain ⟨rfl, hphase⟩ := report_eq_returned h
      exact ⟨hphase, hinv'.of_halted hphase⟩
    · obtain ⟨rfl, hphase⟩ := report_eq_failed h
      exact hphase

/-- Settles O41: the end of a run is outside a run, where more fuel takes no step. -/
theorem fuelDoesNotChangeTheEndOfARun : Obligations.FuelDoesNotChangeTheEndOfARun := by
  intro c U n k i
  refine ⟨fun j h => ?_, fun e j h => ?_, fun j kind hinv hkind h => ?_⟩
  · rw [drive_add (by simp [h]), h]
  · rw [drive_add (by simp [h]), h]
  · have hrun : InRun c kind i.state := ⟨hinv, .inl hkind⟩
    obtain ⟨r, hr⟩ | ⟨i', ⟨hinv', hphase⟩, hr⟩ := drive_report (n := n) (U := U) engineStep_keeps_inRun hrun <;>
      rw [hr] at h
    · cases h
    · obtain ⟨rfl, hopen⟩ := report_eq_unfinished h
      have hrunning : j.state.phase = .running kind := by
        obtain hphase | hphase | ⟨e, hphase⟩ := hphase
        · exact hphase
        · simp [hphase] at hopen
        · simp [hphase] at hopen
      exact ⟨hrunning, hinv'.runFlag_of_running hrunning⟩

/-- Settles O42: every step leads back to the jump. -/
theorem jumpToItselfRunsForever : Obligations.JumpToItselfRunsForever := by
  intro s kind a w n hs hrun hip ha hw hop hv
  have hstart : RunningAt s.mem kind a s := ⟨hs, hrun, hip, rfl⟩
  obtain ⟨t, ⟨ht, hrun', hip', hmem⟩, hdrive⟩ :=
    drive_of_progress (fun _ => engineStep_selfJump ha hw hop hv) n hstart
  exact ⟨t, hdrive.trans (report_of_running ht), ht, hrun', hip', hmem⟩

/-! ### The host: the start of a run, and no move during one -/

theorem hostStart_done {c : Config} {U : InstructionUnit} {i : Instance U} {kind : RunKind} {start : Nat}
    (hidle : i.state.phase = .idle) (hstart : start < 65536) :
    hostStart c kind start i = .done () ⟨i.state.beginRun c kind (BitVec.ofNat 16 start)⟩ := by
  simp [hostStart, hidle, hstart]

/-- Settles O17: the start is a flag write to PS and a write to IP; the fetch then compares IP with the size of memory. -/
theorem startSetsRunAndIp : Obligations.StartSetsRunAndIp := by
  intro kind start U s
  refine ⟨fun h => by simp [hostStart, h], fun h hstart => by simp [hostStart, h, Nat.not_lt.mpr hstart],
    fun hidle hstart => ⟨_, setBit config s.regs.ps 7 true, hostStart_done hidle hstart, rfl, rfl, rfl, ?_,
      fun k hk => ?_, fun hps => by rw [hps]; rfl, ?_, rfl, rfl, fun hout => ?_⟩⟩
  · rw [valueBit_setBit, if_pos rfl]
  · rw [valueBit_setBit, if_neg hk]
  · exact (SameRegsExcept.refl.setReg (by simp)).setReg (by simp)
  · have hword : (BitVec.ofNat 16 start).toNat = start := Nat.mod_eq_of_lt hstart
    have hf : fetch config (s.beginRun config kind (BitVec.ofNat 16 start)) = .error (.addressOutOfRange start) _ :=
      hword ▸ fetch_range rfl (by rwa [hword])
    exact ⟨_, engineStep_of_error rfl (fetchParse_of_fetch_error hf), rfl, rfl, rfl, fetch_error_frame, rfl, rfl⟩

/-- Settles O39, by the test of the phase that each transaction begins with. -/
theorem hostHasNoMoveDuringARun : Obligations.HostHasNoMoveDuringARun := by
  intro c U i
  refine ⟨fun ⟨kind, hkind⟩ => ?_, fun hphase => ⟨fun _ _ => if_neg hphase, fun _ => if_neg hphase, fun _ _ => if_neg hphase⟩⟩
  have hread {α : Type} (answer : Except Error α) : i.hostRead answer = .refused .hostMove := by
    simp [Instance.hostRead, hkind, Phase.hostMayRead]
  exact ⟨fun _ => hread _, fun _ => hread _, fun _ => hread _, hread _⟩

end Sys2Proof.Machine

/-! PROOFS. The host's image: the bytes of a padded image and `loadImage` (R162). -/

namespace Sys2Proof.Machine

/-- Padding with zero bytes is not seen by a read whose default is the zero byte (R162). -/
theorem getElem?_getD_pad (img : List Byte) (n k : Nat) : (img ++ List.replicate n 0)[k]?.getD 0 = img.getD k 0 := by
  rcases Nat.lt_or_ge k img.length with hk | hk
  · rw [List.getElem?_append_left hk, List.getD_eq_getElem?_getD]
  · rw [List.getElem?_append_right hk, List.getElem?_getD_replicate_default_eq, List.getD_eq_default _ _ hk]

/-- A byte of the padded image is the byte of the image there, or zero beyond it (R162). -/
theorem eq_getD_of_pad_getElem? {img : List Byte} {n k : Nat} {b : Byte} (h : (img ++ List.replicate n 0)[k]? = some b) :
    b = img.getD k 0 := by
  rw [← getElem?_getD_pad img n k, h, Option.getD_some]

/-- A cell with the number that R47 makes of two bytes has them as its high and its low byte. -/
theorem bytes_of_toNat {v : Value} {high low : Byte} (h : v.toNat = high.toNat * 256 + low.toNat) :
    highByte v = high ∧ lowByte v = low := by
  obtain rfl : v = joinBytes high low := BitVec.eq_of_toNat_eq (h.trans (joinBytes_toNat high low).symm)
  exact ⟨highByte_joinBytes high low, lowByte_joinBytes high low⟩

/-- Settles O37: the padded image has the exact length, so R47 gives every cell from two of its bytes. -/
theorem loadImagePadsWithZeros : Obligations.LoadImagePadsWithZeros := by
  intro c U s img hidle
  refine ⟨fun hlong => if_pos hlong, fun hshort => ?_⟩
  have hlen : (img ++ List.replicate (2 * c.memSize - img.length) 0).length = 2 * c.memSize := by
    rw [List.length_append, List.length_replicate, Nat.add_sub_cancel' hshort]
  obtain ⟨t, hload, hregs, hcontrol, hcells⟩ := (loadFillsCellsBigEndian c U s _ hidle).2 hlen
  refine ⟨t, (if_neg (Nat.not_lt.mpr hshort)).trans hload, hregs, hcontrol, fun a ha => ?_⟩
  obtain ⟨v, high, low, hread, hhigh, hlow, hv⟩ := hcells a ha
  obtain ⟨hvhigh, hvlow⟩ := bytes_of_toNat hv
  exact ⟨v, hread, hvhigh.trans (eq_getD_of_pad_getElem? hhigh), hvlow.trans (eq_getD_of_pad_getElem? hlow)⟩

end Sys2Proof.Machine

/-! PROOFS. The instructions of T0: how each routine ends (R181 to R190), and that the store of `STA` is the one memory write. -/

namespace Sys2Proof.Machine

section

variable {c : Config} {s t u : State} {a v w : Value}

/-! ### How the routines of T0 end -/

theorem run_lda_ok (ha : a.toNat < c.memSize) (hv : s.mem.read a.toNat = some v) :
    (t0Execute (.lda a)).run c s = .ok .continues (((s.setReg .ar a).setReg .dr v).setReg .ac v) := by
  simp [t0Execute, ldaRoutine, Routine.run, memRead_ok ha hv]

/-- The bus read outside memory ends `LDA` with AR written (R44, R182). -/
theorem run_lda_range (ha : c.memSize ≤ a.toNat) :
    (t0Execute (.lda a)).run c s = .error (.addressOutOfRange a.toNat) (s.setReg .ar a) := by
  simp [t0Execute, ldaRoutine, Routine.run, memRead_range ha]

/-- The bus read of a never-written cell ends `LDA` with AR written (R44, R182). -/
theorem run_lda_uninit (ha : a.toNat < c.memSize) (hv : s.mem.read a.toNat = none) :
    (t0Execute (.lda a)).run c s = .error (.uninitializedRead (.cell a.toNat)) (s.setReg .ar a) := by
  simp [t0Execute, ldaRoutine, Routine.run, memRead_uninit ha hv]

theorem run_sta_ok (hac : s.regs.ac = some v) (ha : a.toNat < c.memSize) : (t0Execute (.sta a)).run c s =
    .ok .continues { (s.setReg .ar a).setReg .dr v with mem := s.mem.write a.toNat v } := by
  simp [t0Execute, staRoutine, Routine.run, readReg_some (r := .ac) hac, memWrite_ok ha]

/-- The bus write outside memory ends `STA` with AR and DR written (R45, R183). -/
theorem run_sta_range (hac : s.regs.ac = some v) (ha : c.memSize ≤ a.toNat) :
    (t0Execute (.sta a)).run c s = .error (.addressOutOfRange a.toNat) ((s.setReg .ar a).setReg .dr v) := by
  simp [t0Execute, staRoutine, Routine.run, readReg_some (r := .ac) hac, memWrite_range ha]

/-- `STA` reads AC before it uses the bus (R183). -/
theorem run_sta_noAc (hac : s.regs.ac = none) :
    (t0Execute (.sta a)).run c s = .error (.uninitializedRead (.reg .ac)) s := by
  simp [t0Execute, staRoutine, Routine.run, readReg_none (r := .ac) hac]

theorem run_inc_ok (hac : s.regs.ac = some v) :
    (t0Execute .inc).run c s = .ok .continues (s.setReg .ac (incrementValue v)) := by
  simp [t0Execute, incRoutine, Routine.run, readReg_some (r := .ac) hac]

theorem run_inc_noAc (hac : s.regs.ac = none) :
    (t0Execute .inc).run c s = .error (.uninitializedRead (.reg .ac)) s := by
  simp [t0Execute, incRoutine, Routine.run, readReg_none (r := .ac) hac]

theorem run_tst_ok (h : recalcFromAccumulator c s = .ok () t) : (t0Execute .tst).run c s = .ok .continues t := by
  simp [t0Execute, tstRoutine, Routine.run, h]

theorem run_tst_noAc (hac : s.regs.ac = none) :
    (t0Execute .tst).run c s = .error (.uninitializedRead (.reg .ac)) s := by
  simp [t0Execute, tstRoutine, Routine.run, recalc_none hac]

/-- `JZ` tests bit 2 of PS as it stands (R187). -/
theorem run_jz_ok (hps : s.regs.ps = some v) :
    (t0Execute (.jz a)).run c s = .ok .continues (if valueBit v 2 then s.setReg .ip a else s) := by
  have hbit : valueBit v Flag.zero.bit = valueBit v 2 := rfl
  cases hz : valueBit v 2 <;> simp [t0Execute, jzRoutine, Routine.run, readBit_some (r := .ps) _ hps, hbit, hz]

/-! ### Which instruction writes memory -/

theorem memRead_mem : (memRead c a s).state.mem = s.mem := by
  rcases memRead_cases c a s with ⟨v, -, -, e⟩ | ⟨_, e⟩ <;> rw [e] <;> rfl

theorem recalc_mem : (recalcFromAccumulator c s).state.mem = s.mem := by
  cases hac : s.regs.ac with
  | none => rw [recalc_none hac]; rfl
  | some a => rw [recalc_ok hac]; rfl

/-- A sequence whose parts keep memory keeps it. -/
theorem bind_mem {α β : Type} {x : Result α} {f : α → State → Result β} (hx : x.state.mem = s.mem)
    (hf : ∀ y u, (f y u).state.mem = u.mem) : (x.bind f).state.mem = s.mem :=
  bind_stable (P := fun u => u.mem = s.mem) hx fun y u hu => (hf y u).trans hu

/-- Every T0 routine but the one of `STA` leaves memory alone, however it ends. -/
theorem run_mem_of_not_sta {i : Instr} (hi : ∀ x, i ≠ .sta x) : ((t0Execute i).run c s).state.mem = s.mem := by
  cases i with
  | sta x => exact absurd rfl (hi x)
  | ldi | jmp | setf | clrf | hlt => rfl
  | lda => exact bind_mem memRead_mem fun _ _ => rfl
  | inc => exact bind_mem (by simp) fun _ _ => rfl
  | tst => exact bind_mem recalc_mem fun _ _ => rfl
  | jz => exact bind_mem (by simp) fun z _ => by cases z <;> rfl

/-- `STA` leaves memory alone, or writes the value of AC at its operand address (R183). -/
theorem run_sta_mem (c : Config) (s : State) (x : Value) : ((t0Execute (.sta x)).run c s).state.mem = s.mem ∨
    ∃ v, s.regs.ac = some v ∧ ((t0Execute (.sta x)).run c s).state.mem = s.mem.write x.toNat v := by
  cases hac : s.regs.ac with
  | none => simp [run_sta_noAc hac]
  | some v =>
    rcases Nat.lt_or_ge x.toNat c.memSize with hx | hx
    · simp [run_sta_ok hac hx]
    · simp [run_sta_range hac hx]

theorem Ended.mem_eq (h : Ended c u t) : t.mem = u.mem := by
  cases h <;> rfl

/-- Where an instruction of T0 changes what cell `b` reads, it is `STA` with operand `b`, and the cell holds AC. -/
theorem exec_mem_changed {i : Instr} {b : Nat} (h : complete config ((t0Execute i).run config s) = .next t)
    (hne : t.mem.read b ≠ s.mem.read b) :
    ∃ x v, i = .sta x ∧ x.toNat = b ∧ s.regs.ac = some v ∧ t.mem.read b = some v := by
  rw [(complete_next h).mem_eq] at hne ⊢
  by_cases hi : ∃ x, i = .sta x
  · obtain ⟨x, rfl⟩ := hi
    obtain hmem | ⟨v, hac, hmem⟩ := run_sta_mem config s x <;> rw [hmem] at hne ⊢
    · exact absurd rfl hne
    · obtain rfl : x.toNat = b := by
        by_contra hb
        exact hne (Memory.read_write_other _ v (Ne.symm hb))
      exact ⟨x, v, rfl, rfl, hac, Memory.read_write_self ..⟩
  · exact absurd (congrArg (Memory.read · b) (run_mem_of_not_sta fun x hx => hi ⟨x, hx⟩)) hne

theorem select_sta (h : opcodeOf w = 0x02#8) : select w = .ok ⟨1, fun t => .ok (.sta t)⟩ := by
  simp [select, h]

/-- An operand fetch that gives a word read it from the cell at IP (R143). -/
theorem fetchOperand_eq_ok (hip : s.regs.ip = some a) (h : fetchOperand c s = .ok v t) :
    s.mem.read a.toNat = some v := by
  simp only [fetchOperand, readReg_some (r := .ip) hip, Result.bind_ok, Result.bind_eq_ok, Result.ok.injEq] at h
  obtain ⟨_, u, hread, rfl, -⟩ := h
  obtain ⟨y, -, hy, hok⟩ | ⟨e, herr⟩ := memRead_cases c a s
  · rw [hok] at hread
    cases hread
    exact hy
  · rw [herr] at hread
    cases hread

/-- The operand of an instruction with one operand word is what the cell at IP holds when it is parsed (R140, R143). -/
theorem parse_operand_read {ι : Type} {select : Value → Except IsetError (Selection ι)} {i : ι} {f : Value → ι}
    (hs : select w = .ok ⟨1, fun v => .ok (f v)⟩) (hip : s.regs.ip = some a) (h : parse c select w s = .ok i u) :
    ∃ v, s.mem.read a.toNat = some v ∧ i = f v := by
  simp only [parse, hs, fetchOperands, Result.bind_eq_ok, Result.ok.injEq] at h
  obtain ⟨v, _, hv, hi, -⟩ := h
  exact ⟨v, fetchOperand_eq_ok hip hv, hi.symm⟩

theorem advance_toNat_of_lt (ha : a.toNat < 2048) : (advance config a).toNat = a.toNat + 1 := by
  have hmod : ipModulus config = 65536 := rfl
  rw [advance_toNat config a (by decide), hmod]
  omega

end

/-- Settles O23: the fetches keep memory, and of the instructions only `STA` writes it, at the operand word after its opcode. -/
theorem onlyStaWritesMemory : Obligations.OnlyStaWritesMemory := by
  intro s t b h hne
  obtain ⟨kind, -, ⟨a, w, i, u, hfp, hx⟩ | ⟨e, u, hfp, rfl⟩⟩ := step_cases h
  · obtain ⟨hregs, hmem⟩ := fetchParse_emit_frame (kind := kind) hfp
    obtain ⟨x, v, rfl, hb, hac, hv⟩ := exec_mem_changed hx (by rwa [hmem])
    obtain ⟨hf, hparse⟩ := fetchParse_eq_ok hfp
    obtain ⟨hip, ha, hw, -⟩ := fetch_eq_ok hf
    obtain ⟨hop, -⟩ := parse_select_opcode hparse
    obtain ⟨y, hy, hxy⟩ := parse_operand_read (select_sta hop) rfl hparse
    cases hxy
    rw [advance_toNat_of_lt ha] at hy
    exact ⟨a, w, x, v, hip, hw, hop, hy, hb, (hregs .ac (by simp)).symm.trans hac, hv⟩
  · have hmem : u.mem = s.mem := (fetchParse_frame hfp).2
    exact absurd (congrArg (Memory.read · b) hmem) hne

end Sys2Proof.Machine

/-! PROOFS. What each instruction of T0 does from every state, and what it leaves unchanged (R181 to R190). -/

namespace Sys2Proof.Machine

section

variable {c : Config} {s t : State} {i : Instr} {a v w : Value} {k : BitIndex} {b : Bool}

/-! ### The rows of R75 -/

theorem select_ldi (h : opcodeOf w = 0x00#8) : select w = .ok ⟨0, .ldi (imm8Of w)⟩ := by simp [select, h]

theorem select_lda (h : opcodeOf w = 0x01#8) : select w = .ok ⟨1, fun t => .ok (.lda t)⟩ := by simp [select, h]

theorem select_inc (h : opcodeOf w = 0x03#8) : select w = .ok ⟨0, .inc⟩ := by simp [select, h]

theorem select_tst (h : opcodeOf w = 0x04#8) : select w = .ok ⟨0, .tst⟩ := by simp [select, h]

theorem select_jz (h : opcodeOf w = 0x06#8) : select w = .ok ⟨1, fun t => .ok (.jz t)⟩ := by simp [select, h]

theorem select_setf (h : opcodeOf w = 0x07#8) : select w = .ok ⟨0, .setf (bitIndexOf w)⟩ := by simp [select, h]

theorem select_clrf (h : opcodeOf w = 0x08#8) : select w = .ok ⟨0, .clrf (bitIndexOf w)⟩ := by simp [select, h]

theorem select_hlt (h : opcodeOf w = 0xFF#8) : select w = .ok ⟨0, .hlt⟩ := by simp [select, h]

/-! ### From the end of a routine to the answer of `exec` -/

/-- An instruction that returns `Continue` and leaves `RUN` at 1 has completed (R132, R137). -/
theorem exec_of_continues (hx : (t0Execute i).run config s = .ok .continues t) (hrun : t.runFlag = true) :
    exec i s = .next t := by
  rw [exec_eq_complete, hx, complete_continue hrun]

/-- An instruction that raises an error aborts the run from the state it left (R138). -/
theorem exec_of_error {e : Error} (hx : (t0Execute i).run config s = .error e t) : exec i s = .next (t.abort e) := by
  rw [exec_eq_complete, hx]
  rfl

/-! ### Writes to PS -/

/-- Bit 7 of PS is `RUN`, also where PS was never written (R20). -/
theorem runFlag_eq_getD (s : State) : s.runFlag = valueBit (s.regs.ps.getD 0#16) 7 := by
  cases hps : s.regs.ps <;> simp [State.runFlag, hps]

/-- A bit write to PS sets `RUN` where it names bit 7, and keeps it otherwise (R96). -/
theorem setRegBit_ps_runFlag : (s.setRegBit c .ps k b).runFlag = if 7 = k then b else s.runFlag := by
  have hps : (s.setRegBit c .ps k b).regs.ps = some (setBit c s.regs.ps k b) := rfl
  rw [runFlag_eq hps, valueBit_setBit, runFlag_eq_getD]

/-- A bit write to a PS that holds a value changes no other bit of it (R96, R114). -/
theorem setRegBit_ps_sameBits (h : s.runFlag = true) : SamePsBitsExcept [k] s (s.setRegBit c .ps k b) := by
  obtain ⟨p, hp, -⟩ := (runFlag_true_iff s).mp h
  refine ⟨p, setBit c s.regs.ps k b, hp, rfl, fun j hj => ?_⟩
  rw [valueBit_setBit, if_neg (by simpa using hj), hp, Option.getD_some]

/-- An instruction that writes one bit of PS and continues completes, unless it clears `RUN` (R137, R188, R189). -/
theorem exec_writeBit_ps (hi : t0Execute i = .writeBit .ps k b (.done .continues)) (hrun : s.runFlag = true)
    (hkeep : k = 7 → b = true) : ∃ t q, exec i s = .next t ∧ t.regs.ps = some q ∧ valueBit q k = b ∧
      SamePsBitsExcept [k] s t ∧ SameRegsExcept [.ps] s t ∧ SameMemory s t ∧ SameControl s t := by
  have hrun' : (s.setRegBit config .ps k b).runFlag = true := by
    rw [setRegBit_ps_runFlag]
    split
    · exact hkeep (Eq.symm ‹_›)
    · exact hrun
  have hx : (t0Execute i).run config s = .ok .continues (s.setRegBit config .ps k b) := by rw [hi]; rfl
  exact ⟨_, setBit config s.regs.ps k b, exec_of_continues hx hrun', rfl, by rw [valueBit_setBit, if_pos rfl],
    setRegBit_ps_sameBits hrun, SameRegsExcept.refl.setReg (by simp), fun _ => rfl, rfl, rfl⟩

theorem zeroExtend_toNat (imm8 : BitVec 8) : (zeroExtend imm8).toNat = imm8.toNat :=
  BitVec.toNat_setWidth_of_le (by decide)

end

/-- Settles O52, by the three ends of the bus read. -/
theorem ldaLoadsThroughTheBus : Obligations.LdaLoadsThroughTheBus := by
  refine ⟨fun _ => select_lda, fun a s => ⟨fun v hrun ha hv => ?_, fun ha => ?_, fun ha hv => ?_⟩⟩
  · exact ⟨_, exec_of_continues (run_lda_ok ha hv) hrun, rfl, rfl, rfl,
      ((SameRegsExcept.refl.setReg (by simp)).setReg (by simp)).setReg (by simp), fun _ => rfl, rfl, rfl⟩
  · exact ⟨_, exec_of_error (run_lda_range ha), rfl, rfl, SameRegsExcept.refl.setReg (by simp), fun _ => rfl, rfl⟩
  · exact ⟨_, exec_of_error (run_lda_uninit ha hv), rfl, rfl, SameRegsExcept.refl.setReg (by simp), fun _ => rfl, rfl⟩

/-- Settles O53: AC is read before the bus write begins, which has written AR and DR where the address is out of range. -/
theorem staStoresThroughTheBus : Obligations.StaStoresThroughTheBus := by
  refine ⟨fun _ => select_sta, fun a s => ⟨fun v hrun hac ha => ?_, fun v hac ha => ?_, fun hac => ?_⟩⟩
  · exact ⟨_, exec_of_continues (run_sta_ok hac ha) hrun, Memory.read_write_self ..,
      fun _ => Memory.read_write_other _ v, rfl, rfl, (SameRegsExcept.refl.setReg (by simp)).setReg (by simp), rfl, rfl⟩
  · exact ⟨_, exec_of_error (run_sta_range hac ha), rfl, rfl, rfl,
      (SameRegsExcept.refl.setReg (by simp)).setReg (by simp), fun _ => rfl, rfl⟩
  · exact ⟨_, exec_of_error (run_sta_noAc hac), rfl, .refl, fun _ => rfl, rfl⟩

/-- Settles O55, by what `recalcFromAccumulator` does (R115), which keeps `RUN` among the other bits. -/
theorem tstRecomputesZeroAndSign : Obligations.TstRecomputesZeroAndSign := by
  refine ⟨fun _ => select_tst, fun s => ⟨fun a hrun hac => ?_, fun hac => ?_⟩⟩
  · obtain ⟨-, hrecalc⟩ := recalcSetsZeroAndSignOnly s
    obtain ⟨t, q, hok, hq, hzero, hsign, -, hkeep, hregs, hmem, hcontrol⟩ := hrecalc a hac
    obtain ⟨p, hp, hp7⟩ := (runFlag_true_iff s).mp hrun
    simp only [hp, Option.getD_some] at hkeep
    have hrun' : t.runFlag = true := by rw [runFlag_eq hq, hkeep 7 (by decide) (by decide), hp7]
    exact ⟨t, q, exec_of_continues (run_tst_ok hok) hrun', hq, hzero, hsign,
      ⟨p, q, hp, hq, fun k hk => hkeep k (by simp_all) (by simp_all)⟩, hregs, hmem, hcontrol⟩
  · exact ⟨_, exec_of_error (run_tst_noAc hac), rfl, .refl, fun _ => rfl, rfl⟩

/-- Settles O56: the target is not looked at before the next fetch, which compares it with the size of memory. -/
theorem jmpWritesIpOnly : Obligations.JmpWritesIpOnly := by
  refine ⟨fun _ => select_jmp, fun a s hrun => ⟨_, exec_jmp hrun, rfl, SameRegsExcept.refl.setReg (by simp),
    fun _ => rfl, ⟨rfl, rfl⟩, fun kind hs ha => ?_⟩⟩
  have hf : fetch config (s.setReg .ip a) = .error (.addressOutOfRange a.toNat) _ := fetch_range rfl ha
  exact ⟨_, stepBy_of_error (s := s.setReg .ip a) hs (fetchParse_of_fetch_error hf), rfl, rfl, rfl⟩

/-- Settles O58: setting bit 7 leaves `RUN` at 1 too. -/
theorem setfSetsOneBit : Obligations.SetfSetsOneBit :=
  ⟨fun _ => select_setf, fun _ _ hrun => exec_writeBit_ps rfl hrun fun _ => rfl⟩

/-- Settles O59: clearing bit 7 is the one bit write that the test of R137 refuses. -/
theorem clrfClearsOneBitAndRunIsRefused : Obligations.ClrfClearsOneBitAndRunIsRefused := by
  refine ⟨fun _ => select_clrf, fun k s hrun hk => exec_writeBit_ps rfl hrun fun h => absurd h hk, fun s => ?_⟩
  have hbit : valueBit (setBit config s.regs.ps 7 false) 7 = false := by rw [valueBit_setBit, if_pos rfl]
  have hend : exec (.clrf 7) s = complete config (.ok .continues (s.setRegBit config .ps 7 false)) := rfl
  rw [hend, complete_continues_of_ps (v := setBit config s.regs.ps 7 false) rfl, if_neg (by simp [hbit])]

/-- Settles O60: the one write is the halt's own, to bit 7 of PS (R136). -/
theorem hltEndsTheRun : Obligations.HltEndsTheRun := by
  refine ⟨fun _ => select_hlt, fun s => ⟨s.halt config, setBit config s.regs.ps 7 false, rfl, rfl, rfl, ?_,
    fun k hk => ?_, SameRegsExcept.refl.setReg (by simp), fun _ => rfl, rfl⟩⟩
  · rw [valueBit_setBit, if_pos rfl]
  · rw [valueBit_setBit, if_neg hk]

/-- Settles O51: one register write. -/
theorem ldiWritesTheZeroExtendedImmediate : Obligations.LdiWritesTheZeroExtendedImmediate :=
  ⟨fun _ => select_ldi, fun imm8 s hrun => ⟨s.setReg .ac (zeroExtend imm8), _, exec_of_continues rfl hrun, rfl,
    zeroExtend_toNat imm8, SameRegsExcept.refl.setReg (by simp), fun _ => rfl, rfl, rfl⟩⟩

/-- Settles O54: one register read and one register write. -/
theorem incAddsOneWithoutFlags : Obligations.IncAddsOneWithoutFlags := by
  refine ⟨fun _ => select_inc, fun s => ⟨fun v hrun hac => ?_, fun hac => ?_⟩⟩
  · exact ⟨_, _, exec_of_continues (run_inc_ok hac) hrun, rfl, incrementValue_toNat v,
      SameRegsExcept.refl.setReg (by simp), fun _ => rfl, rfl, rfl⟩
  · exact ⟨_, exec_of_error (run_inc_noAc hac), rfl, .refl, fun _ => rfl, rfl⟩

/-- Settles O57, by whether the jump is taken. -/
theorem jzJumpsExactlyOnTheZeroFlag : Obligations.JzJumpsExactlyOnTheZeroFlag := by
  refine ⟨fun _ => select_jz, fun a p s hp hp7 => ?_⟩
  have hrun : s.runFlag = true := (runFlag_eq hp).trans hp7
  have hx := run_jz_ok (c := config) (a := a) hp
  cases hz : valueBit p 2 <;> rw [hz] at hx
  · exact ⟨s, exec_of_continues hx hrun, rfl, .refl, fun _ => rfl, rfl, rfl⟩
  · exact ⟨s.setReg .ip a, exec_of_continues hx hrun, rfl, SameRegsExcept.refl.setReg (by simp), fun _ => rfl, rfl, rfl⟩

end Sys2Proof.Machine
